-- ==== Sys2Proof/Word.lean ====
section
/-! DEFINITION. The words the ports carry (10_state.md R22, R23) and the byte a harness moves (20_memory.md R44).
Bit 0 is the least significant bit of every word (00_scope.md R6, 20_memory.md R43). -/

namespace Sys2Proof

/-- One byte of a serialised application (only a harness that moves port values as bytes has any). -/
abbrev Byte := BitVec 8

/-- A binary16 bit pattern, the width of `fp16_out` and `fp16_in`. -/
abbrev Fp16 := BitVec 16

/-- A binary64 bit pattern, the width of `fp64_in` and `fp64_out`. -/
abbrev Fp64 := BitVec 64

end Sys2Proof
end

