-- ==== Sys2Proof/Config.lean ====
section
/-! DEFINITION. What is fixed when the hardware is built (00_scope.md R5), and the free values: the levels of an output
port whose input has not been steady for T_PD (70_reset_and_hazards.md R231, R233). -/

namespace Sys2Proof

/-- `ENC_NAN_MODE` (R5, R103). -/
inductive EncNanMode where
  | signCanonical
  | positiveCanonical
  | payloadQuiet
  deriving DecidableEq, Repr

/-- `DEC_NAN_MODE` (R5, R146). -/
inductive DecNanMode where
  | payloadQuiet
  | signCanonical
  | positiveCanonical
  deriving DecidableEq, Repr

/-- `BYTE_ORDER` (R5, R44): used only to serialise port words into bytes. -/
inductive ByteOrder where
  | little
  | big
  deriving DecidableEq, Repr

/-- The build-time parameters of R5. They are carried in the state so that one `step` serves every build and a claim
about every state is a claim about every build; no step changes them (log 1, DESIGN CHOICE). -/
structure Params where
  encNanMode : EncNanMode
  decNanMode : DecNanMode
  byteOrder  : ByteOrder
  /-- `T_PD` of the encode block (R233), "a duration" in R5: a whole number of an unspecified unit of time (log 24, DESIGN
  CHOICE). -/
  encTPd     : Nat
  /-- `T_PD` of the decode block, "possibly different for each block" (R233): a whole number of the same unit (log 24, DESIGN
  CHOICE). -/
  decTPd     : Nat
  deriving DecidableEq, Repr

/-- The build that `State.reset` shows: the spec's default NaN modes (R5; log 2). `BYTE_ORDER` and `T_PD` are OPEN in the
spec: the values here are the model's (logs 3 and 4, DESIGN CHOICE, unsafe). -/
def Params.default : Params where
  encNanMode := .signCanonical
  decNanMode := .payloadQuiet
  byteOrder  := .little
  encTPd     := 1
  decTPd     := 1

/-- A free value: the `n`th level drawn from an unsettled `fp16_out`, "any value, under no law" (R231, R233; log 13). -/
opaque Config.encDraw : Nat → Fp16

/-- A free value: the `n`th level drawn from an unsettled `fp64_out` (R231, R233; log 13). -/
opaque Config.decDraw : Nat → Fp64

end Sys2Proof
end

