-- ==== Sys2Proof/Machine/Operands.lean ====
section
/-! DEFINITION. Operand assembly (30_encoding.md R60, R62, R68): the fields of a pattern as unsigned numbers, and the classes
the fields name (R61, R63, 40_fp64_to_fp16.md R102). There are no immediates, registers or addressing modes. -/

namespace Sys2Proof.Machine

/-! ### binary64: sign 63, exponent 62:52, fraction 51:0 (R62, R101) -/

def sign64 (a : Fp64) : Nat := a.toNat >>> 63
def exponent64 (a : Fp64) : Nat := (a.toNat >>> 52) % 2 ^ 11
def fraction64 (a : Fp64) : Nat := a.toNat % 2 ^ 52

/-! ### binary16: sign 15, exponent 14:10, mantissa 9:0 (R60, R141) -/

def sign16 (h : Fp16) : Nat := h.toNat >>> 15
def exponent16 (h : Fp16) : Nat := (h.toNat >>> 10) % 2 ^ 5
def mantissa16 (h : Fp16) : Nat := h.toNat % 2 ^ 10

/-- The classes of a pattern (R61, R63). -/
inductive FpClass where
  | zero
  | subnormal
  | normal
  | infinity
  | nan
  deriving DecidableEq, Repr

/-- The class of a binary64 pattern, tested in the order of R102. -/
def class64 (a : Fp64) : FpClass :=
  if exponent64 a = 2047 ∧ fraction64 a ≠ 0 then .nan
  else if exponent64 a = 2047 ∧ fraction64 a = 0 then .infinity
  else if exponent64 a = 0 ∧ fraction64 a = 0 then .zero
  else if exponent64 a = 0 then .subnormal
  else .normal

/-- The class of a binary16 pattern (R61). -/
def class16 (h : Fp16) : FpClass :=
  if exponent16 h = 0 ∧ mantissa16 h = 0 then .zero
  else if exponent16 h = 0 then .subnormal
  else if exponent16 h ≤ 30 then .normal
  else if mantissa16 h = 0 then .infinity
  else .nan

/-- A finite value: zero, subnormal or normal. -/
def FpClass.isFinite : FpClass → Bool
  | .zero => true
  | .subnormal => true
  | .normal => true
  | .infinity => false
  | .nan => false

/-! ### Quiet and signalling NaNs (R64) -/

/-- A binary16 NaN whose mantissa bit 9 is 1. -/
def quietNan16 (h : Fp16) : Bool := class16 h == .nan && h.getLsbD 9

/-- A binary64 NaN whose fraction bit 51 is 1. -/
def quietNan64 (a : Fp64) : Bool := class64 a == .nan && a.getLsbD 51

/-- A binary64 NaN with the quiet bit 0 (R64, R201). -/
def signallingNan64 (a : Fp64) : Bool := class64 a == .nan && !a.getLsbD 51

/-- A binary16 NaN with the quiet bit 0 (R64). -/
def signallingNan16 (h : Fp16) : Bool := class16 h == .nan && !h.getLsbD 9

/-! ### Significand and exponent of a finite non-zero binary64 (R106) -/

/-- `M`: the implicit leading 1 made explicit for a normal; none for a subnormal. -/
def significand64 (E F : Nat) : Nat := if E = 0 then F else 2 ^ 52 + F

/-- `ue`: the unbiased exponent; `-1022` for a subnormal. -/
def unbiased64 (E : Nat) : Int := if E = 0 then -1022 else (E : Int) - 1023

end Sys2Proof.Machine
end

