-- ==== Sys2Proof/Machine/Convert.lean ====
section
/-! DEFINITION. The two conversion functions, in the spec's own pseudocode (40_fp64_to_fp16.md R100, 41_fp16_to_fp64.md R140).
As there, every value inside is an unbounded number and a width applies only where a port is driven (00_scope.md R6). -/

namespace Sys2Proof.Machine

/-! ### encode -/

/-- `RNE_SHIFT(M, k)`: `M / 2^k` rounded to nearest, ties to even (R107). -/
def rneShift (M k : Nat) : Nat :=
  let q := M >>> k
  let r := M % 2 ^ k
  let half := 2 ^ (k - 1)
  if half < r ∨ (r = half ∧ q % 2 = 1) then q + 1 else q

/-- `enc_nan(mode, s, F)` (R103). -/
def encNan (mode : EncNanMode) (s F : Nat) : Nat :=
  match mode with
  | .signCanonical => (s <<< 15) ||| 0x7E00
  | .positiveCanonical => 0x7E00
  | .payloadQuiet => (s <<< 15) ||| 0x7C00 ||| 0x0200 ||| (F >>> 42)

/-- `mag`: the 15 magnitude bits of a finite non-zero input `M × 2^(ue - 52)` (R108, R109, R110; carries per R111). -/
def encMagnitude (M : Nat) (ue : Int) : Nat :=
  if 16 ≤ ue then 0x7C00
  else if -14 ≤ ue then ((ue + 15).toNat <<< 10) + (rneShift M 42 - 1024)
  else rneShift M (28 - ue).toNat

/-- `encode` (R100), as a number. -/
def fpEncodeNat (mode : EncNanMode) (a : Fp64) : Nat :=
  let s := sign64 a
  let E := exponent64 a
  let F := fraction64 a
  if E = 2047 ∧ F ≠ 0 then encNan mode s F
  else if E = 2047 ∧ F = 0 then (s <<< 15) ||| 0x7C00
  else if E = 0 ∧ F = 0 then s <<< 15
  else (s <<< 15) ||| encMagnitude (significand64 E F) (unbiased64 E)

/-- `encode : ENC_NAN_MODE -> BitVec 64 -> BitVec 16` (10_state.md R31): `fp16_out` as a function of `fp64_in`. -/
def fpEncode (mode : EncNanMode) (a : Fp64) : Fp16 := BitVec.ofNat 16 (fpEncodeNat mode a)

/-! ### decode -/

/-- `msb_index(m)`, the position of the leading one, for `m ≥ 1` (00_scope.md R7). -/
def msbIndex (m : Nat) : Nat := m.log2

/-- `dec_nan(mode, s, m)` (R146). -/
def decNan (mode : DecNanMode) (s m : Nat) : Nat :=
  match mode with
  | .payloadQuiet => (s <<< 63) ||| (2047 <<< 52) ||| ((m ||| 0x200) <<< 42)
  | .signCanonical => (s <<< 63) ||| 0x7FF8000000000000
  | .positiveCanonical => 0x7FF8000000000000

/-- `decode` (R140), as a number. -/
def fpDecodeNat (mode : DecNanMode) (h : Fp16) : Nat :=
  let s := sign16 h
  let e := exponent16 h
  let m := mantissa16 h
  if e = 0 ∧ m = 0 then s <<< 63
  else if e = 0 then
    let p := msbIndex m
    (s <<< 63) ||| ((p + 999) <<< 52) ||| ((m <<< (52 - p)) % 2 ^ 52)
  else if e ≤ 30 then (s <<< 63) ||| ((e + 1008) <<< 52) ||| (m <<< 42)
  else if m = 0 then (s <<< 63) ||| (2047 <<< 52)
  else decNan mode s m

/-- `decode : DEC_NAN_MODE -> BitVec 16 -> BitVec 64` (R31): `fp64_out` as a function of `fp16_in`. -/
def fpDecode (mode : DecNanMode) (h : Fp16) : Fp64 := BitVec.ofNat 64 (fpDecodeNat mode h)

end Sys2Proof.Machine
end

