-- ==== Sys2Proof/Syntax.lean ====
section
/-! DEFINITION. The two operations of 30_encoding.md R67, each with its whole operand (R68). -/

namespace Sys2Proof

/-- One application of a block to the pattern on its input port. -/
inductive Instr where
  /-- `fp64_to_fp16` (encode), selector `op = 0`, operand `fp64_in[63:0]` (R67, R100). -/
  | fp64ToFp16 (fp64In : Fp64)
  /-- `fp16_to_fp64` (decode), selector `op = 1`, operand `fp16_in[15:0]` (R67, R140). -/
  | fp16ToFp64 (fp16In : Fp16)
  deriving DecidableEq, Repr

end Sys2Proof
end

