-- ==== Sys2Proof/WellFormed.lean ====
section
/-! DEFINITION. What a well-formed application is, and what a well-formed byte stream of a harness is. -/

namespace Sys2Proof

/-- Every application is well formed: "Every input pattern is legal and has a defined result" (30_encoding.md R65, R24);
the operand's width is in its type, so no check is left. -/
def Instr.wellFormed : Instr → Bool
  | .fp64ToFp16 _ => true
  | .fp16ToFp64 _ => true

/-- The stream holds whole serialised applications and nothing else (log 5): a selector byte, whose bit 0 is `op`, then
the 8 bytes of an encode operand or the 2 bytes of a decode operand. A host program's streams must meet it; a stream that
does not is refused by the decoder (log 7). -/
def wholeApplications : List Byte → Bool
  | [] => true
  | sel :: rest =>
    match sel.getLsbD 0, rest with
    | true, _ :: _ :: more => wholeApplications more
    | false, _ :: _ :: _ :: _ :: _ :: _ :: _ :: _ :: more => wholeApplications more
    | _, _ => false

end Sys2Proof
end

