-- ==== Sys2Proof/Decode.lean ====
section
/-! DEFINITION. Serialised applications: the decoder from bytes, total, and after it the encoder.
The spec gives the one-bit selector (30_encoding.md R67) and leaves the serialisation to the harness, with its open
parameter BYTE_ORDER (20_memory.md R44): the layout "selector byte, then the operand's bytes" is the model's (log 5). -/

namespace Sys2Proof

/-- Why bytes are no application. Each stops the harness's stream, not a block: no block input is illegal (R24). -/
inductive DecodeError where
  /-- No selector byte: the stream is empty. -/
  | noSelector
  /-- `op = 0`, with fewer than 8 operand bytes left. -/
  | shortFp64Operand
  /-- `op = 1`, with fewer than 2 operand bytes left. -/
  | shortFp16Operand
  deriving DecidableEq, Repr

/-! ### Port words and bytes (BYTE_ORDER) -/

/-- The low `n` bytes of `v`, least significant byte first. -/
def leBytes : Nat → Nat → List Byte
  | 0, _ => []
  | n + 1, v => BitVec.ofNat 8 v :: leBytes n (v / 256)

/-- The number whose bytes, least significant first, are `bs`. -/
def leNat : List Byte → Nat
  | [] => 0
  | b :: bs => b.toNat + 256 * leNat bs

/-- The bytes of an `n`-byte port word in the order `o`. -/
def wordBytes (o : ByteOrder) (n v : Nat) : List Byte :=
  match o with
  | .little => leBytes n v
  | .big => (leBytes n v).reverse

/-- The port word that bytes in the order `o` spell. -/
def wordNat (o : ByteOrder) (bs : List Byte) : Nat :=
  match o with
  | .little => leNat bs
  | .big => leNat bs.reverse

/-! ### The decoder -/

/-- Read one serialised application and give the rest of the stream. Only bit 0 of the selector byte is read (the table's
mask is 0x1); both its values are used and "No selector value is reserved" (R67; log 6). -/
def decode (o : ByteOrder) : List Byte → Except DecodeError (Instr × List Byte)
  | [] => .error .noSelector
  | sel :: rest =>
    if sel.getLsbD 0 then
      if rest.length < 2 then .error .shortFp16Operand
      else .ok (.fp16ToFp64 (BitVec.ofNat 16 (wordNat o (rest.take 2))), rest.drop 2)
    else
      if rest.length < 8 then .error .shortFp64Operand
      else .ok (.fp64ToFp16 (BitVec.ofNat 64 (wordNat o (rest.take 8))), rest.drop 8)

/-! ### The encoder -/

/-- The selector bit of an operation (R67). -/
def Instr.op : Instr → BitVec 1
  | .fp64ToFp16 _ => 0
  | .fp16ToFp64 _ => 1

/-- The serialised application: the selector byte, its bits 7:1 zero, then the operand. -/
def encode (o : ByteOrder) (i : Instr) : List Byte :=
  i.op.setWidth 8 ::
    match i with
    | .fp64ToFp16 a => wordBytes o 8 a.toNat
    | .fp16ToFp64 h => wordBytes o 2 h.toNat

/-! ### The host's numbering of table words -/

/-- The bytes of the application whose bits are the low `nbits` bits of `w`, bit 0 of `w` being bit 0 of the selector byte
and the operand's bits counting on from bit 8; every bit above is 0. -/
def tableBytes (o : ByteOrder) (nbits w : Nat) : List Byte :=
  let v := w % 2 ^ nbits
  let sel : Byte := BitVec.ofNat 8 v
  sel :: wordBytes o (if sel.getLsbD 0 then 2 else 8) (v / 256)

/-- What the decoder reads from a word of spec/opcode_table.json. The answer is the same for either BYTE_ORDER, since the
word is laid out in the order it is read in. -/
def decodeTableWord (nbits w : Nat) : Option Instr :=
  match decode .little (tableBytes .little nbits w) with
  | .ok (i, []) => some i
  | .ok (_, _ :: _) => none
  | .error _ => none

end Sys2Proof
end

