-- ==== Sys2Proof/Machine/State.lean ====
section
/-! DEFINITION. The machine's state: the ports of both blocks (10_state.md R22, R23), how long each input has been steady
(70_reset_and_hazards.md R233), the build-time parameters (00_scope.md R5), and the host's side of a program: the moves it
has yet to make and the outputs it has read (95_test_vectors.md section 3). The blocks themselves hold no state (R20).
Also the reasons a step can stop. -/

namespace Sys2Proof.Machine

/-- What the host may do (70_reset_and_hazards.md R237). There is no move that drives an unknown or high-impedance level:
"A host that drives X or Z has no move in the model" (log 16). -/
inductive HostMove where
  /-- Apply the serialised applications of the stream, one a step (R237 "apply encode", "apply decode"). -/
  | apply (bytes : List Byte)
  /-- Drive a pattern on `fp64_in`. -/
  | driveFp64In (a : Fp64)
  /-- Drive a pattern on `fp16_in`. -/
  | driveFp16In (h : Fp16)
  /-- Hold both inputs as they are for a time `d` (R233), a whole number of the unit of `T_PD` (log 24, DESIGN CHOICE). -/
  | hold (d : Nat)
  /-- Read `fp16_out`, settled or not (R237 "read before settling"). -/
  | readFp16Out
  /-- Read `fp64_out`, settled or not. -/
  | readFp64Out
  deriving DecidableEq, Repr

/-- A word the host has read from an output port. -/
inductive Output where
  | fp16 (h : Fp16)
  | fp64 (d : Fp64)
  deriving DecidableEq, Repr

structure State where
  /-- Build-time parameters (R5). No step changes them. -/
  params  : Params
  /-- The level on `fp64_in[63:0]` (R22). -/
  fp64In  : Fp64
  /-- The level on `fp16_out[15:0]` (R22); what a read gives once the input has been steady for `T_PD`. -/
  fp16Out : Fp16
  /-- How long `fp64_in` has been steady (R233; unit and granularity: log 24). -/
  encHeld : Nat
  /-- The level on `fp16_in[15:0]` (R23). -/
  fp16In  : Fp16
  /-- The level on `fp64_out[63:0]` (R23); what a read gives once the input has been steady for `T_PD`. -/
  fp64Out : Fp64
  /-- How long `fp16_in` has been steady (R233; unit and granularity: log 24). -/
  decHeld : Nat
  /-- The host's moves still to come, the next one first. -/
  script  : List HostMove
  /-- The outputs the host has read, oldest first. -/
  outputs : List Output
  /-- The model's own: how many unsettled levels have been drawn, the argument of the free values (log 13). -/
  draws   : Nat
  deriving DecidableEq, Repr

/-- No reason: "Neither block raises an exception, for any input" (60_exceptions.md R200), and a step relation "has no fault
outcome, because no input is illegal" (10_state.md R31). The type has no constructor, so that nothing can fault (log 20). -/
inductive Fault where
  deriving DecidableEq, Repr

/-- Why a step is refused. -/
inductive Refusal where
  /-- The instruction of this mnemonic has no meaning yet: raised by `exec`'s arm, safe. No arm raises it now. -/
  | notModelled (mnemonic : String)
  /-- The host's stream of serialised applications ends inside one: raised by `step` from the decoder's answer, safe. It is a
  broken harness stream, no input of a block (log 7). -/
  | undecodable (e : DecodeError)
  deriving DecidableEq, Repr

/-- `T_PD` of the encode block has passed since `fp64_in` last changed (R233). -/
abbrev State.encSettled (s : State) : Prop := s.params.encTPd ≤ s.encHeld

/-- `T_PD` of the decode block has passed since `fp16_in` last changed (R233). -/
abbrev State.decSettled (s : State) : Prop := s.params.decTPd ≤ s.decHeld

/-- Right after power-up, with power good (R230, R231): no reset input exists and no reset value is defined. The blocks have
the spec's default NaN modes (R5); the levels on the input ports (log 10), the times (log 12) and the levels on the
output ports, which no read returns before they settle (log 11), are the model's choice. -/
def State.reset : State where
  params  := Params.default
  fp64In  := 0
  fp16Out := 0
  encHeld := 0
  fp16In  := 0
  fp64Out := 0
  decHeld := 0
  script  := []
  outputs := []
  draws   := 0

end Sys2Proof.Machine
end

