-- ==== Sys2Proof/Machine/Ops.lean ====
section
/-! DEFINITION. The operations on the ports, shared by both instructions and by the host's moves.
There is no memory and no register file to operate on (20_memory.md R40, 10_state.md R26), and there is no exception to take
or return from (60_exceptions.md R200, R204, R205). -/

namespace Sys2Proof.Machine

/-! ### The levels on the output ports -/

/-- The level on `fp16_out` as the time held now gives it: the function of the input alone once that has been steady for
`T_PD`, a fresh draw before (R21, R231, R233). -/
def State.refreshEnc (s : State) : State :=
  { s with
    fp16Out := if s.encSettled then fpEncode s.params.encNanMode s.fp64In else Config.encDraw s.draws
    draws := s.draws + 1 }

/-- As `refreshEnc`, for `fp64_out`. -/
def State.refreshDec (s : State) : State :=
  { s with
    fp64Out := if s.decSettled then fpDecode s.params.decNanMode s.fp16In else Config.decDraw s.draws
    draws := s.draws + 1 }

/-! ### Driving an input port -/

/-- Drive `a` on `fp64_in`. A new pattern starts the steady time again; the same pattern leaves the input steady (log 14).
A drive takes no time (log 12). -/
def State.driveFp64In (s : State) (a : Fp64) : State :=
  State.refreshEnc { s with fp64In := a, encHeld := if a = s.fp64In then s.encHeld else 0 }

/-- As `driveFp64In`, for `fp16_in`. -/
def State.driveFp16In (s : State) (h : Fp16) : State :=
  State.refreshDec { s with fp16In := h, decHeld := if h = s.fp16In then s.decHeld else 0 }

/-! ### Holding the inputs steady (R233) -/

/-- Let a time `d` pass with both inputs as they are: each of them has been steady for `d` more, so each output may settle. "The
output of each block at any moment is a function of the value on its input port alone (once the input has been stable for
`T_PD`)", and of no other block (R21). -/
def State.hold (s : State) (d : Nat) : State :=
  State.refreshDec (State.refreshEnc { s with encHeld := s.encHeld + d, decHeld := s.decHeld + d })

/-! ### Reading an output port -/

/-- What a read of `fp16_out` sees: its level if settled, else a draw "under no law" (R231, R233). -/
def State.fp16OutSeen (s : State) : Fp16 :=
  if s.encSettled then s.fp16Out else Config.encDraw s.draws

/-- What a read of `fp64_out` sees. -/
def State.fp64OutSeen (s : State) : Fp64 :=
  if s.decSettled then s.fp64Out else Config.decDraw s.draws

/-- Read `fp16_out`: "No port read has a side effect" on a block (R47); the word joins the outputs read.
A read takes no time (log 12). -/
def State.readFp16Out (s : State) : State :=
  { s with outputs := s.outputs ++ [.fp16 s.fp16OutSeen], draws := s.draws + 1 }

/-- Read `fp64_out`. -/
def State.readFp64Out (s : State) : State :=
  { s with outputs := s.outputs ++ [.fp64 s.fp64OutSeen], draws := s.draws + 1 }

/-! ### The host's script -/

/-- Put the rest of a stream back before the other moves; a stream that is used up is gone. -/
def State.resumeStream (s : State) (bytes : List Byte) : State :=
  match bytes with
  | [] => s
  | b :: bs => { s with script := .apply (b :: bs) :: s.script }

end Sys2Proof.Machine
end

