-- ==== Sys2Proof/Machine/Narrow.lean ====
section
/-! DEFINITION. `fp64_to_fp16`, the operation of `fp64_to_fp16_converter`. -/

namespace Sys2Proof.Machine

/-- R100, R237: drive the operand on `fp64_in`, hold it steady for `T_PD`, read `fp16_out`; one atomic step (R47; log 15).
The time held passes for the other block's input too (R21). -/
def execFp64ToFp16 (a : Fp64) (s : State) : Host.Outcome State Fault Refusal :=
  .next ((s.driveFp64In a).hold s.params.encTPd).readFp16Out

end Sys2Proof.Machine
end

