-- ==== Sys2Proof/Machine/Widen.lean ====
section
/-! DEFINITION. `fp16_to_fp64`, the operation of `fp16_to_fp64_converter`. -/

namespace Sys2Proof.Machine

/-- R140, R237: drive the operand on `fp16_in`, hold it steady for `T_PD`, read `fp64_out`; one atomic step (R47; log 15).
The time held passes for the other block's input too (R21). -/
def execFp16ToFp64 (h : Fp16) (s : State) : Host.Outcome State Fault Refusal :=
  .next ((s.driveFp16In h).hold s.params.decTPd).readFp64Out

end Sys2Proof.Machine
end

