-- ==== Sys2Proof/Machine/Dispatch.lean ====
section
/-! DEFINITION. One arm per operation of spec/opcode_table.json. -/

namespace Sys2Proof.Machine

def exec (i : Instr) (s : State) : Host.Outcome State Fault Refusal :=
  match i with
  | .fp64ToFp16 a => Sys2Proof.Machine.execFp64ToFp16 a s
  | .fp16ToFp64 h => Sys2Proof.Machine.execFp16ToFp64 h s

end Sys2Proof.Machine
end

