-- ==== Sys2Proof/Machine/Moves.lean ====
section
/-! DEFINITION. One move of the host (70_reset_and_hazards.md R237). -/

namespace Sys2Proof.Machine

/-- Take the next serialised application off the stream and run it; the rest of the stream waits (R51: "in any order the
host issues them", here the stream's). A stream used up asks for nothing more. -/
def applyStream (bytes : List Byte) (s : State) : Host.Outcome State Fault Refusal :=
  match bytes with
  | [] => .next s
  | b :: bs =>
    match decode s.params.byteOrder (b :: bs) with
    | .ok (i, rest) => exec i (s.resumeStream rest)
    | .error e => .refused (.undecodable e)

/-- The effect of one move, the script already moved past it. -/
def runMove (m : HostMove) (s : State) : Host.Outcome State Fault Refusal :=
  match m with
  | .apply bytes => applyStream bytes s
  | .driveFp64In a => .next (s.driveFp64In a)
  | .driveFp16In h => .next (s.driveFp16In h)
  | .hold d => .next (s.hold d)
  | .readFp16Out => .next s.readFp16Out
  | .readFp64Out => .next s.readFp64Out

/-- Run the script's first move. "A host program ends when its last output has been read" (R237): after the last move a step
changes nothing (log 9). -/
def runScript (s : State) : Host.Outcome State Fault Refusal :=
  match s.script with
  | [] => .next s
  | m :: rest => runMove m { s with script := rest }

/-- The script with one more stream before it: an application of the table's numbering, stored where the next step takes its
application from. -/
def State.withTableWord (s : State) (nbits w : Nat) : State :=
  { s with script := .apply (tableBytes s.params.byteOrder nbits w) :: s.script }

end Sys2Proof.Machine
end

