-- ==== Sys2Proof/Machine/Step.lean ====
section
/-! DEFINITION. One step: the host's next move. The blocks fetch nothing and have no program counter (10_state.md R27): the
application that runs next is the one the host's script holds first. -/

namespace Sys2Proof.Machine

/-- One step of the machine (R31: "one step per application"; the host's other moves of R237 are a step each too). -/
def step (s : State) : Host.Outcome State Fault Refusal := runScript s

/-- `s` with the application whose bits are `w` as the next move (log 8). -/
def State.withFetchWord (s : State) (nbits w : Nat) : State := s.withTableWord nbits w

end Sys2Proof.Machine
end

