-- ==== Sys2Proof/Machine/Datapath.lean ====
section
/-! DEFINITION. The same two functions as a fixed-width datapath: guard and sticky bits with a bounded shifter
(40_fp64_to_fp16.md R118) and a leading-one detector (41_fp16_to_fp64.md R143). No meaning uses them; they are stated equal
to `fpEncode` and `fpDecode`. -/

namespace Sys2Proof.Machine

/-- "RNE_SHIFT(M, k) = q + 1 when guard and (sticky or lsb), and q otherwise" (R118), for `k ≥ 2`. -/
def guardStickyShift (M k : Nat) : Nat :=
  let q := M >>> k
  let lsb := q % 2 = 1
  let guard := M.testBit (k - 1)
  let sticky := M % 2 ^ (k - 1) ≠ 0
  if guard ∧ (sticky ∨ lsb) then q + 1 else q

/-- The rounding stage on a 53-bit significand: the shifter output and its guard, sticky and lsb (R118). -/
def roundStage (M : BitVec 53) (k : Nat) : BitVec 53 :=
  let q := M >>> k
  let guard := M.getLsbD (k - 1)
  let sticky := M.setWidth (k - 1) != 0
  if guard && (sticky || q.getLsbD 0) then q + 1 else q

/-- The NaN word of R103 in port widths. -/
def narrowNan (mode : EncNanMode) (s : BitVec 1) (F : BitVec 52) : Fp16 :=
  match mode with
  | .signCanonical => s ++ 0x7E00#15
  | .positiveCanonical => 0x7E00#16
  | .payloadQuiet => s ++ (0x7E00#15 ||| (F.extractLsb' 42 10).setWidth 15)

/-- The narrowing datapath (R118): overflow by exponent from `E = 1039` (ue = 16), the fixed shift by 42 for
`1009 ≤ E`, the shifter for `43 ≤ k ≤ 53`, that is `998 ≤ E ≤ 1008`, and zero below, binary64 subnormals included. -/
def narrowDatapath (mode : EncNanMode) (a : Fp64) : Fp16 :=
  let s : BitVec 1 := a.extractLsb' 63 1
  let E : BitVec 11 := a.extractLsb' 52 11
  let F : BitVec 52 := a.extractLsb' 0 52
  let M : BitVec 53 := 1#1 ++ F
  if E = 2047#11 then (if F = 0#52 then s ++ 0x7C00#15 else narrowNan mode s F)
  else if 1039#11 ≤ E then s ++ 0x7C00#15
  else if 1009#11 ≤ E then
    s ++ (((E - 1008#11).setWidth 15 <<< 10) + ((roundStage M 42).setWidth 15 - 1024#15))
  else if 998#11 ≤ E then s ++ (roundStage M (1051 - E.toNat)).setWidth 15
  else s ++ 0#15

/-- The leading-one detector on the 10 mantissa bits, a priority encoder (R143). -/
def leadingOne (m : BitVec 10) : Nat :=
  if m.getLsbD 9 then 9
  else if m.getLsbD 8 then 8
  else if m.getLsbD 7 then 7
  else if m.getLsbD 6 then 6
  else if m.getLsbD 5 then 5
  else if m.getLsbD 4 then 4
  else if m.getLsbD 3 then 3
  else if m.getLsbD 2 then 2
  else if m.getLsbD 1 then 1
  else 0

/-- The NaN word of R146 in port widths. -/
def widenNan (mode : DecNanMode) (s : BitVec 1) (m : BitVec 10) : Fp64 :=
  match mode with
  | .payloadQuiet => s ++ 2047#11 ++ (m ||| 0x200#10) ++ 0#42
  | .signCanonical => s ++ 0x7FF8000000000000#63
  | .positiveCanonical => 0x7FF8000000000000#64

/-- The widening datapath: exponent and the 10 top fraction bits; fraction bits 41:0 are wired to 0 (R143 to R147). -/
def widenDatapath (mode : DecNanMode) (h : Fp16) : Fp64 :=
  let s : BitVec 1 := h.extractLsb' 15 1
  let e : BitVec 5 := h.extractLsb' 10 5
  let m : BitVec 10 := h.extractLsb' 0 10
  if e = 31#5 then (if m = 0#10 then s ++ 2047#11 ++ 0#52 else widenNan mode s m)
  else if e = 0#5 then
    if m = 0#10 then s ++ 0#63
    else s ++ BitVec.ofNat 11 (leadingOne m + 999) ++ (m <<< (10 - leadingOne m)) ++ 0#42
  else s ++ (e.setWidth 11 + 1008#11) ++ m ++ 0#42

end Sys2Proof.Machine
end

