-- ==== Sys2Proof/Machine/Flags.lean ====
section
/-! DEFINITION. The blocks have no flags, condition codes or status outputs (10_state.md R28, 60_exceptions.md R201), and no
instruction writes any. What R201 gives in their place are predicates "the host's", computed from an input and its output;
they are here. -/

namespace Sys2Proof.Machine

/-- Overflow, saturated to infinity: "a is finite and `h & 0x7FFF == 0x7C00`". -/
def hostOverflow (mode : EncNanMode) (a : Fp64) : Bool :=
  (class64 a).isFinite && (fpEncode mode a &&& 0x7FFF#16 == 0x7C00#16)

/-- Rounded to zero: "a is finite and non-zero, and `h & 0x7FFF == 0`". -/
def hostRoundedToZero (mode : EncNanMode) (a : Fp64) : Bool :=
  (class64 a).isFinite && class64 a != .zero && (fpEncode mode a &&& 0x7FFF#16 == 0#16)

/-- Inexact, for a non-NaN input: `decode(encode(a)) != a`. -/
def hostInexact (enc : EncNanMode) (dec : DecNanMode) (a : Fp64) : Bool :=
  class64 a != .nan && fpDecode dec (fpEncode enc a) != a

/-- Result subnormal or zero after rounding: "a is finite and non-zero, and `h & 0x7C00 == 0`". -/
def hostTiny (mode : EncNanMode) (a : Fp64) : Bool :=
  (class64 a).isFinite && class64 a != .zero && (fpEncode mode a &&& 0x7C00#16 == 0#16)

/-- Signalling-NaN input: "`a[62:52] == 2047`, `a[51] == 0` and `a[50:0] != 0`". -/
def hostSignallingInput (a : Fp64) : Bool :=
  a.extractLsb' 52 11 == 2047#11 && !a.getLsbD 51 && a.extractLsb' 0 51 != 0#51

end Sys2Proof.Machine
end

