-- ==== Sys2Proof/Machine/Wrappers.lean ====
section
/-! DEFINITION. The host-side wrappers of 42_host_wrappers.md: NOT HARDWARE, functions that no step calls. A token is a list
of characters (log 21). -/

namespace Sys2Proof.Machine

/-- A text token. -/
abbrev Token := List Char

/-- The only error of the codec; it "Carries the offending token" (R173). -/
structure InvalidHexFormat where
  token : Token
  deriving DecidableEq, Repr

/-! ### to_hex (R170) -/

/-- A digit of `0123456789ABCDEF`. -/
def hexDigit (n : Nat) : Char :=
  if n < 10 then Char.ofNat (48 + n) else Char.ofNat (55 + n)

/-- The low `n` hexadecimal digits of `v`, most significant first (20_memory.md R45), uppercase and zero-padded. -/
def hexDigits : Nat → Nat → Token
  | 0, _ => []
  | n + 1, v => hexDigit (v / 16 ^ n % 16) :: hexDigits n v

/-- `to_hex(b)`: `0x` and four uppercase digits (R170). -/
def toHex (b : Fp16) : Token := '0' :: 'x' :: hexDigits 4 b.toNat

/-! ### from_hex (R171, R172) -/

/-- The value of a hexadecimal digit in either case. -/
def hexValue? (c : Char) : Option Nat :=
  let n := c.toNat
  if 48 ≤ n ∧ n ≤ 57 then some (n - 48)
  else if 65 ≤ n ∧ n ≤ 70 then some (n - 55)
  else if 97 ≤ n ∧ n ≤ 102 then some (n - 87)
  else none

/-- The digits read as a base-16 number, if all of them are hexadecimal digits; `acc` is what stands before them. -/
def hexNumber? : Nat → Token → Option Nat
  | acc, [] => some acc
  | acc, c :: cs =>
    match hexValue? c with
    | none => none
    | some d => hexNumber? (16 * acc + d) cs

/-- What follows the optional prefix `0x` or `0X` (R171). -/
def afterPrefix (t : Token) : Token :=
  match t with
  | '0' :: 'x' :: ds => ds
  | '0' :: 'X' :: ds => ds
  | ds => ds

/-- `from_hex(t)`: exactly the tokens `^(0[xX])?[0-9A-Fa-f]{1,4}$`, their number "unchanged (no interpretation)" (R171); every
other token fails, and nothing is trimmed (R172). -/
def fromHex (t : Token) : Except InvalidHexFormat Fp16 :=
  let ds := afterPrefix t
  if 1 ≤ ds.length ∧ ds.length ≤ 4 then
    match hexNumber? 0 ds with
    | some v => .ok (BitVec.ofNat 16 v)
    | none => .error ⟨t⟩
  else .error ⟨t⟩

/-! ### Batches (R175, R176) -/

/-- `encode_batch(xs)` (R175). -/
def encodeBatch (mode : EncNanMode) (xs : List Fp64) : List Fp16 := xs.map (fpEncode mode)

/-- `decode_batch(hs)` (R175). -/
def decodeBatch (mode : DecNanMode) (hs : List Fp16) : List Fp64 := hs.map (fpDecode mode)

/-- The batch variant of `to_hex` (R176). -/
def toHexBatch (bs : List Fp16) : List Token := bs.map toHex

/-- "reporting which element and why" (R176). -/
structure BatchFailure where
  index  : Nat
  reason : InvalidHexFormat
  deriving DecidableEq, Repr

/-- The batch variant of `from_hex` on the elements from index `n` on. -/
def fromHexBatchFrom : Nat → List Token → Except BatchFailure (List Fp16)
  | _, [] => .ok []
  | n, t :: ts =>
    match fromHex t with
    | .error e => .error ⟨n, e⟩
    | .ok b =>
      match fromHexBatchFrom (n + 1) ts with
      | .error f => .error f
      | .ok bs => .ok (b :: bs)

/-- The batch variant of `from_hex`: all or nothing, the lowest failing index reported (R176). -/
def fromHexBatch (ts : List Token) : Except BatchFailure (List Fp16) := fromHexBatchFrom 0 ts

end Sys2Proof.Machine
end

