-- ==== Sys2Proof/Machine/Text.lean ====
section
/-! DEFINITION. The textual spelling of one application and of its result (30_encoding.md R69): the mnemonic, a space, `0x`
and the pattern's hexadecimal digits, uppercase and zero-padded to the full width. -/

namespace Sys2Proof.Machine

/-- The mnemonic of R67. -/
def mnemonicText (i : Instr) : Token :=
  match i with
  | .fp64ToFp16 _ => ['f', 'p', '6', '4', '_', 't', 'o', '_', 'f', 'p', '1', '6']
  | .fp16ToFp64 _ => ['f', 'p', '1', '6', '_', 't', 'o', '_', 'f', 'p', '6', '4']

/-- The operand pattern: 16 or 4 digits. -/
def operandText (i : Instr) : Token :=
  match i with
  | .fp64ToFp16 a => '0' :: 'x' :: hexDigits 16 a.toNat
  | .fp16ToFp64 h => '0' :: 'x' :: hexDigits 4 h.toNat

/-- The whole spelling of an application. -/
def printInstr (i : Instr) : Token := mnemonicText i ++ ' ' :: operandText i

/-- The spelling of a result word: `0xHHHH` for encode, 16 digits for decode. -/
def printFp64 (d : Fp64) : Token := '0' :: 'x' :: hexDigits 16 d.toNat

/-- An uppercase hexadecimal digit. -/
def upperHex (c : Char) : Bool := (48 ≤ c.toNat && c.toNat ≤ 57) || (65 ≤ c.toNat && c.toNat ≤ 70)

/-- `0x` and exactly `n` uppercase digits. -/
def parsePattern (n : Nat) (t : Token) : Option Nat :=
  match t with
  | '0' :: 'x' :: ds => if ds.length = n ∧ ds.all upperHex then hexNumber? 0 ds else none
  | _ => none

/-- The application a text spells, if any. A decimal operand ("a harness may also write an encode operand as the binary64
value it denotes") is the harness's to turn into a pattern first (R178). -/
def parseInstr (t : Token) : Option Instr :=
  match t with
  | 'f' :: 'p' :: '6' :: '4' :: '_' :: 't' :: 'o' :: '_' :: 'f' :: 'p' :: '1' :: '6' :: ' ' :: rest =>
    (parsePattern 16 rest).map fun v => .fp64ToFp16 (BitVec.ofNat 64 v)
  | 'f' :: 'p' :: '1' :: '6' :: '_' :: 't' :: 'o' :: '_' :: 'f' :: 'p' :: '6' :: '4' :: ' ' :: rest =>
    (parsePattern 4 rest).map fun v => .fp16ToFp64 (BitVec.ofNat 16 v)
  | _ => none

end Sys2Proof.Machine
end

