-- ==== Sys2Proof/Machine/Values.lean ====
section
/-! DEFINITION. What a pattern denotes: "the real number (or ±infinity, or NaN)" of 00_scope.md R8, by the tables of
30_encoding.md R61 and R63, and the value-level rounding of 40_fp64_to_fp16.md R117. Every finite value of either format is
rational, so a magnitude is an exact rational. -/

namespace Sys2Proof.Machine

/-- A denoted value. A finite value keeps its sign apart from its magnitude, so that −0 and +0 differ. -/
inductive Value where
  | finite (neg : Bool) (mag : ℚ)
  | infinite (neg : Bool)
  | nan
  deriving DecidableEq, Repr

/-- `value` of a binary16 pattern (R61). -/
def value16 (h : Fp16) : Value :=
  let s := decide (sign16 h = 1)
  let e := exponent16 h
  let m := mantissa16 h
  if e = 0 then .finite s ((m : ℚ) * 2 ^ (-24 : ℤ))
  else if e ≤ 30 then .finite s ((1 + (m : ℚ) / 1024) * 2 ^ ((e : ℤ) - 15))
  else if m = 0 then .infinite s
  else .nan

/-- `value` of a binary64 pattern (R63). -/
def value64 (a : Fp64) : Value :=
  let s := decide (sign64 a = 1)
  let E := exponent64 a
  let F := fraction64 a
  if E = 0 then .finite s ((F : ℚ) * 2 ^ (-1074 : ℤ))
  else if E ≤ 2046 then .finite s ((1 + (F : ℚ) / 2 ^ 52) * 2 ^ ((E : ℤ) - 1023))
  else if F = 0 then .infinite s
  else .nan

/-- "the integer nearest to" `x`, "on a tie ... the even one" (R117). -/
def roundHalfEven (x : ℚ) : ℤ :=
  if x - ⌊x⌋ < 1 / 2 then ⌊x⌋
  else if 1 / 2 < x - ⌊x⌋ then ⌊x⌋ + 1
  else if ⌊x⌋ % 2 = 0 then ⌊x⌋ else ⌊x⌋ + 1

/-- The binary16 quantum of the binade of `x`: `2^(max(t, −14) − 10)` with `t = floor(log2 x)`, "continued above 2^15 with no
top exponent" (R117). -/
def quantum16 (x : ℚ) : ℚ := 2 ^ (max (Int.log 2 x) (-14) - 10)

/-- `r`: the magnitude `x > 0` rounded to a multiple of its quantum (R117). -/
def roundMagnitude (x : ℚ) : ℚ := roundHalfEven (x / quantum16 x) * quantum16 x

/-- The binary16 value R117 gives to a denoted value: rounded to nearest, saturated to infinity above 65504, its sign kept. -/
def roundTo16 (v : Value) : Value :=
  match v with
  | .nan => .nan
  | .infinite s => .infinite s
  | .finite s x =>
    if x = 0 then .finite s 0
    else if roundMagnitude x ≤ 65504 then .finite s (roundMagnitude x)
    else .infinite s

/-- The signed number of a finite value: "−0 = +0" (R120). -/
def signedValue (neg : Bool) (mag : ℚ) : ℚ := if neg then -mag else mag

/-- `x <= y` of two values that are not NaN, as extended real numbers (R120); nothing is below or above a NaN. -/
def Value.le (v w : Value) : Bool :=
  match v, w with
  | .nan, _ => false
  | _, .nan => false
  | .infinite true, _ => true
  | _, .infinite false => true
  | .finite s x, .finite t y => decide (signedValue s x ≤ signedValue t y)
  | .infinite false, .finite _ _ => false
  | .finite _ _, .infinite true => false
  | .infinite false, .infinite true => false

end Sys2Proof.Machine
end

