-- ==== Sys2Proof/Safety.lean ====
section
/-! DEFINITION. What counts as a safe state and a safe run. -/

namespace Sys2Proof.Machine

/-- A move whose stream, if it has one, holds whole applications: the host's duty (log 7). -/
def HostMove.whole : HostMove → Bool
  | .apply bytes => wholeApplications bytes
  | .driveFp64In _ => true
  | .driveFp16In _ => true
  | .hold _ => true
  | .readFp16Out => true
  | .readFp64Out => true

/-- Every move of the host's script is whole. -/
def State.wholeScript (s : State) : Bool := s.script.all HostMove.whole

/-- Each settled output port shows the function of its own input port: "The output of each block at any moment is a function of
the value on its input port alone (once the input has been stable for `T_PD`)" (10_state.md R21). -/
def State.portsAgree (s : State) : Prop :=
  (s.encSettled → s.fp16Out = fpEncode s.params.encNanMode s.fp64In) ∧
  (s.decSettled → s.fp64Out = fpDecode s.params.decNanMode s.fp16In)

/-- The run from `s` is safe: every number of steps ends in a state, with no fault and no refusal. -/
def State.safeRun (s : State) : Prop := ∀ n, ∃ t, Sys2Proof.core.run n s = .next t

/-- The encode block's side of the state: its ports and its steady time. -/
def State.encSide (s : State) : Fp64 × Fp16 × Nat := (s.fp64In, s.fp16Out, s.encHeld)

/-- The decode block's side of the state. -/
def State.decSide (s : State) : Fp16 × Fp64 × Nat := (s.fp16In, s.fp64Out, s.decHeld)

end Sys2Proof.Machine
end

