-- ==== Sys2Proof/Certificates/Slice0/Obligations.lean ====
section
/-! DEFINITION. The statements for the provers. A statement's docstring names the rule of spec/ it states, or says what it
derives from and which choices of the model (log <n>) it rests on. -/

open Sys2Proof Sys2Proof.Machine

/-! ### Serialised and textual applications -/

/-- Decoding what was encoded gives the application back, every operand bit, in either BYTE_ORDER, with the rest of the
stream. The serialised layout is the model's choice (log 5); the two selector values are 30_encoding.md section 3's. -/
def Obligations.DecodeOfEncodeGivesTheApplication : Prop :=
  ∀ (o : ByteOrder) (i : Instr) (rest : List Byte), decode o (encode o i ++ rest) = .ok (i, rest)

/-- The other direction: bytes that decode are the encoding of what they decode to, but for the selector byte's bits 7:1, which
the model ignores (log 6, DESIGN CHOICE). -/
def Obligations.DecodedBytesAreTheEncoding : Prop :=
  ∀ (o : ByteOrder) (sel : Byte) (bs : List Byte) (i : Instr) (rest : List Byte),
    decode o (sel :: bs) = .ok (i, rest) → (sel &&& 1#8) :: bs = encode o i ++ rest

/-- Words written out from 95_test_vectors.md P1 and W16 in the layout of log 5: op = 0 with operand 0x400921FB54442D18
(little), op = 1 with operand 0x4248 (little), op = 1 with operand 0xC100 (big), op = 0 with operand 0xC004000000000000 (big). -/
def Obligations.WrittenWordsDecode : Prop :=
  decode .little [0x00, 0x18, 0x2D, 0x44, 0x54, 0xFB, 0x21, 0x09, 0x40] = .ok (.fp64ToFp16 0x400921FB54442D18, []) ∧
  decode .little [0x01, 0x48, 0x42] = .ok (.fp16ToFp64 0x4248, []) ∧
  decode .big [0x01, 0xC1, 0x00] = .ok (.fp16ToFp64 0xC100, []) ∧
  decode .big [0x00, 0xC0, 0x04, 0x00, 0x00, 0x00, 0x00, 0x00, 0x00] = .ok (.fp64ToFp16 0xC004000000000000, [])

/-- Bit 0 of the selector byte names the operation and no other bit of it matters: "0 selects encode and 1 selects decode",
"Both values are used" (30_encoding.md section 3, a decision of the spec; the byte layout is log 5's and log 6's). -/
def Obligations.SelectorBitNamesTheOperation : Prop :=
  (∀ (o : ByteOrder) (sel : Byte) (bs : List Byte), 8 ≤ bs.length →
    (sel.getLsbD 0 = false → ∃ a, decode o (sel :: bs) = .ok (.fp64ToFp16 a, bs.drop 8)) ∧
    (sel.getLsbD 0 = true → ∃ h, decode o (sel :: bs) = .ok (.fp16ToFp64 h, bs.drop 2))) ∧
  (∀ (o : ByteOrder) (sel : Byte) (bs : List Byte), decode o (sel :: bs) = decode o ((sel &&& 1#8) :: bs))

/-- The decoder refuses exactly the streams that end inside an application, and no operand pattern (log 7; every input pattern is
legal, 30_encoding.md section 2). -/
def Obligations.DecoderRefusesOnlyShortStreams : Prop :=
  ∀ (o : ByteOrder) (bs : List Byte), (∃ e, decode o bs = .error e) ↔
    bs = [] ∨ (∃ sel rest, bs = sel :: rest ∧ sel.getLsbD 0 = false ∧ rest.length < 8) ∨
      (∃ sel rest, bs = sel :: rest ∧ sel.getLsbD 0 = true ∧ rest.length < 2)

/-- The hexadecimal spelling of an application (30_encoding.md section 4, a decision of the spec) reads back as it, and it is the
only text that `parseInstr` reads as that application. That it is the only one is the model's choice (log 21): the spec also
lets a harness write an encode operand as the value it denotes ("for example `fp64_to_fp16 1.5`"), a form `parseInstr` leaves
to the harness to turn into a pattern first. -/
def Obligations.TextSpellsOneApplication : Prop :=
  (∀ i : Instr, parseInstr (printInstr i) = some i) ∧
  ∀ (t : Token) (i : Instr), parseInstr t = some i → t = printInstr i

/-- R60: the layout of a binary16 pattern, its sign at bit 15, exponent at 14:10, biased by 15, mantissa at 9:0. -/
def Obligations.Fp16PatternIsItsFields : Prop :=
  ∀ h : Fp16, h.toNat = (sign16 h <<< 15) ||| (exponent16 h <<< 10) ||| mantissa16 h ∧
    sign16 h = (h.extractLsb' 15 1).toNat ∧ exponent16 h = (h.extractLsb' 10 5).toNat ∧
    mantissa16 h = (h.extractLsb' 0 10).toNat ∧
    (1 ≤ exponent16 h → exponent16 h ≤ 30 →
      value16 h = .finite (h.getLsbD 15) ((1 + (mantissa16 h : ℚ) / 1024) * 2 ^ ((exponent16 h : ℤ) - 15)))

/-- The class of a pattern and the value it denotes agree, in both formats (30_encoding.md section 1; the binary64 table is the
spec's general knowledge). -/
def Obligations.ClassesAgreeWithValues : Prop :=
  (∀ h : Fp16,
    (class16 h = .nan ↔ value16 h = .nan) ∧ (class16 h = .infinity ↔ ∃ s, value16 h = .infinite s) ∧
    (class16 h = .zero ↔ ∃ s, value16 h = .finite s 0) ∧
    (class16 h = .subnormal ↔ ∃ s x, value16 h = .finite s x ∧ 0 < x ∧ x < 2 ^ (-14 : ℤ)) ∧
    (class16 h = .normal ↔ ∃ s x, value16 h = .finite s x ∧ 2 ^ (-14 : ℤ) ≤ x)) ∧
  (∀ a : Fp64,
    (class64 a = .nan ↔ value64 a = .nan) ∧ (class64 a = .infinity ↔ ∃ s, value64 a = .infinite s) ∧
    (class64 a = .zero ↔ ∃ s, value64 a = .finite s 0) ∧
    (class64 a = .subnormal ↔ ∃ s x, value64 a = .finite s x ∧ 0 < x ∧ x < 2 ^ (-1022 : ℤ)) ∧
    (class64 a = .normal ↔ ∃ s x, value64 a = .finite s x ∧ 2 ^ (-1022 : ℤ) ≤ x))

/-! ### fp64_to_fp16: completion, result of each input class, frame -/

/-- R116: for each ENC_NAN_MODE, exactly one result for every input, in every state: the application completes, shows it on
`fp16_out` and the host reads it. -/
def Obligations.EncodeIsTotalAndReadsOnlyItsInput : Prop :=
  ∀ (mode : EncNanMode) (a : Fp64), ∃! h : Fp16, ∀ s : State, s.params.encNanMode = mode →
    ∃ t, exec (.fp64ToFp16 a) s = .next t ∧ t.fp16Out = h ∧ t.outputs = s.outputs ++ [.fp16 h]

/-- R105: a zero gives the signed zero. -/
def Obligations.EncodeOfZeroIsSignedZero : Prop :=
  ∀ (a : Fp64) (s : State), a = 0x0000000000000000#64 ∨ a = 0x8000000000000000#64 →
    ∃ t, exec (.fp64ToFp16 a) s = .next t ∧
      t.fp16Out = (if a = 0x0000000000000000#64 then 0x0000#16 else 0x8000#16) ∧
      t.outputs = s.outputs ++ [.fp16 t.fp16Out]

/-- R104: an infinity gives the infinity of its sign. -/
def Obligations.EncodeOfInfinityIsInfinity : Prop :=
  ∀ (a : Fp64) (s : State), exponent64 a = 2047 → fraction64 a = 0 →
    ∃ t, exec (.fp64ToFp16 a) s = .next t ∧
      t.fp16Out = (if a.getLsbD 63 then 0xFC00#16 else 0x7C00#16) ∧
      t.outputs = s.outputs ++ [.fp16 t.fp16Out]

/-- A NaN gives the NaN of ENC_NAN_MODE: the sign and 0x7E00; 0x7E00; or the sign, the quiet bit and fraction bits 50:42
(40_fp64_to_fp16.md section 2, a decision of the spec, in every mode). -/
def Obligations.EncodeOfNaNFollowsTheMode : Prop :=
  ∀ (a : Fp64) (s : State), exponent64 a = 2047 → fraction64 a ≠ 0 →
    ∃ t, exec (.fp64ToFp16 a) s = .next t ∧
      t.fp16Out =
        (match s.params.encNanMode with
          | .signCanonical => if a.getLsbD 63 then 0xFE00#16 else 0x7E00#16
          | .positiveCanonical => 0x7E00#16
          | .payloadQuiet => a.extractLsb' 63 1 ++ 0x1F#5 ++ 1#1 ++ a.extractLsb' 42 9) ∧
      t.outputs = s.outputs ++ [.fp16 t.fp16Out]

/-- Overflow by exponent: `ue >= 16` gives the infinity of the input's sign (40_fp64_to_fp16.md section 2, derived there). -/
def Obligations.EncodeOfLargeExponentIsInfinity : Prop :=
  ∀ (a : Fp64) (s : State), 1039 ≤ exponent64 a → exponent64 a ≤ 2046 →
    ∃ t, exec (.fp64ToFp16 a) s = .next t ∧
      t.fp16Out = (if a.getLsbD 63 then 0xFC00#16 else 0x7C00#16) ∧
      t.outputs = s.outputs ++ [.fp16 t.fp16Out]

/-- R109: the normal range, `−14 <= ue <= 15`: the magnitude in quanta of `2^(ue − 10)` is `M / 2^42`, `n` is it rounded, and the
result is exponent field `ue + 15` and mantissa `n − 1024`, or the carry's. -/
def Obligations.EncodeRoundsInTheNormalRange : Prop :=
  ∀ (a : Fp64) (s : State), 1009 ≤ exponent64 a → exponent64 a ≤ 1038 →
    let M := 2 ^ 52 + fraction64 a
    let n := rneShift M 42
    class64 a = .normal ∧
    value64 a = .finite (a.getLsbD 63) ((M : ℚ) / 2 ^ 42 * 2 ^ (((exponent64 a : ℤ) - 1023) - 10)) ∧
    1024 ≤ n ∧ n ≤ 2048 ∧
    ∃ t, exec (.fp64ToFp16 a) s = .next t ∧
      t.fp16Out.toNat = 2 ^ 15 * sign64 a + ((exponent64 a - 1008) * 2 ^ 10 + (n - 1024)) ∧
      (n < 2048 → exponent16 t.fp16Out = exponent64 a - 1008 ∧ mantissa16 t.fp16Out = n - 1024) ∧
      (class16 t.fp16Out = .normal ∨ class16 t.fp16Out = .infinity) ∧
      t.outputs = s.outputs ++ [.fp16 t.fp16Out]

/-- R110: the subnormal range, `ue <= −15`, binary64 subnormals included: the magnitude in quanta of `2^−24` is
`M / 2^(28 − ue)`, and the magnitude field is it rounded. -/
def Obligations.EncodeRoundsInTheSubnormalRange : Prop :=
  ∀ (a : Fp64) (s : State), exponent64 a ≤ 1008 → ¬(exponent64 a = 0 ∧ fraction64 a = 0) →
    let M := if exponent64 a = 0 then fraction64 a else 2 ^ 52 + fraction64 a
    let k := if exponent64 a = 0 then 1050 else 1051 - exponent64 a
    let n := rneShift M k
    value64 a = .finite (a.getLsbD 63) ((M : ℚ) / 2 ^ k * 2 ^ (-24 : ℤ)) ∧
    (M : ℚ) / 2 ^ k * 2 ^ (-24 : ℤ) < 2 ^ (-14 : ℤ) ∧
    43 ≤ k ∧ M < 2 ^ 53 ∧ n ≤ 1024 ∧
    ∃ t, exec (.fp64ToFp16 a) s = .next t ∧
      t.fp16Out.toNat = 2 ^ 15 * sign64 a + n ∧
      (n < 1024 → exponent16 t.fp16Out = 0 ∧ mantissa16 t.fp16Out = n) ∧
      t.outputs = s.outputs ++ [.fp16 t.fp16Out]

/-- R114: bit 15 of the result is the input's sign bit for every class, but for a NaN in mode POSITIVE_CANONICAL, where it
is 0; a negative input whose magnitude rounds to zero gives `0x8000`. -/
def Obligations.EncodeKeepsTheSignBit : Prop :=
  ∀ (a : Fp64) (s : State), ∃ t, exec (.fp64ToFp16 a) s = .next t ∧
    t.outputs = s.outputs ++ [.fp16 t.fp16Out] ∧
    t.fp16Out.getLsbD 15 =
      (if class64 a = .nan ∧ s.params.encNanMode = .positiveCanonical then false else a.getLsbD 63) ∧
    (a.getLsbD 63 = true → class64 a ≠ .nan → t.fp16Out &&& 0x7FFF#16 = 0#16 → t.fp16Out = 0x8000#16)

/-- The frame of an encode application: it drives `fp64_in`, the host reads one word, and the decode block's input, the
build-time parameters and the rest of the script are as before (10_state.md sections 1 and 2, 60_exceptions.md section 3). The
application leaves the encode block settled, as one atomic step that holds for just `T_PD` (log 15, DEDUCED), and drive and read
take no time (log 12, DESIGN CHOICE): so the decode block's input has been steady for that `T_PD` more, its output is its own
input's conversion if it is settled by then, and if it was settled before, with the ports in agreement, its level is as before.
The encode block's steady time and the counter of draws may change. There is no memory and there are no flags. -/
def Obligations.EncodeApplicationFrame : Prop :=
  ∀ (a : Fp64) (s : State), ∃ t, exec (.fp64ToFp16 a) s = .next t ∧
    t.fp64In = a ∧ t.encSettled ∧ t.outputs = s.outputs ++ [.fp16 t.fp16Out] ∧
    t.fp16In = s.fp16In ∧ t.decHeld = s.decHeld + s.params.encTPd ∧
    (t.decSettled → t.fp64Out = fpDecode s.params.decNanMode s.fp16In) ∧
    (s.portsAgree → s.decSettled → t.fp64Out = s.fp64Out) ∧
    t.params = s.params ∧ t.script = s.script

/-! ### Rounding -/

/-- R107: `RNE_SHIFT(M, k)` is the integer nearest to `M / 2^k`, and the even one of `q` and `q + 1` on an exact tie. -/
def Obligations.RneShiftIsNearestTiesToEven : Prop :=
  ∀ M k : Nat, 1 ≤ k →
    let n := rneShift M k
    (n = M / 2 ^ k ∨ n = M / 2 ^ k + 1) ∧
    (∀ j : ℤ, |(M : ℤ) - n * 2 ^ k| ≤ |(M : ℤ) - j * 2 ^ k|) ∧
    (∀ j : ℤ, j ≠ n → |(M : ℤ) - n * 2 ^ k| = |(M : ℤ) - j * 2 ^ k| → n % 2 = 0)

/-- The guard-and-sticky formulation gives the same number (40_fp64_to_fp16.md section 3, derived there). -/
def Obligations.GuardAndStickyRoundTheSame : Prop :=
  ∀ M k : Nat, 2 ≤ k → guardStickyShift M k = rneShift M k

/-- The fixed-width narrowing datapath, with its shifter bounded to 43..53, is the conversion function on every input in every
mode (40_fp64_to_fp16.md section 3, derived there). -/
def Obligations.NarrowingDatapathIsEncode : Prop :=
  ∀ (mode : EncNanMode) (a : Fp64), narrowDatapath mode a = fpEncode mode a

/-- The fixed-width widening datapath, with its leading-one detector, is the conversion function on every input in every mode
(41_fp16_to_fp64.md section 2). -/
def Obligations.WideningDatapathIsDecode : Prop :=
  ∀ (mode : DecNanMode) (h : Fp16), widenDatapath mode h = fpDecode mode h

/-- The value-level characterisation: for every input that is not a NaN the result denotes the input's value rounded to the
nearest multiple of its binary16 quantum, ties to even, saturated to infinity above 65504, its sign kept
(40_fp64_to_fp16.md section 3, derived there). -/
def Obligations.EncodeDenotesTheRoundedValue : Prop :=
  ∀ (mode : EncNanMode) (a : Fp64), class64 a ≠ .nan → value16 (fpEncode mode a) = roundTo16 (value64 a)

/-- The overflow threshold is 65520 = 2^16 − 2^4, and what lies from 65504 up to it gives 65504 (40_fp64_to_fp16.md section 2,
derived there; 90_conflicts.md C3). -/
def Obligations.OverflowStartsAt65520 : Prop :=
  ∀ (mode : EncNanMode) (a : Fp64) (neg : Bool) (x : ℚ), value64 a = .finite neg x →
    (fpEncode mode a &&& 0x7FFF#16 = 0x7C00#16 ↔ 65520 ≤ x) ∧
    (65504 ≤ x → x < 65520 → fpEncode mode a &&& 0x7FFF#16 = 0x7BFF#16)

/-- Underflow to a signed zero: exactly the magnitudes of at most 2^−25; above it mantissa 1, and 2 at the tie 1.5 × 2^−24
(40_fp64_to_fp16.md section 2, derived there). -/
def Obligations.UnderflowEndsAtHalfTheSmallestSubnormal : Prop :=
  ∀ (mode : EncNanMode) (a : Fp64) (neg : Bool) (x : ℚ), value64 a = .finite neg x →
    (fpEncode mode a &&& 0x7FFF#16 = 0x0000#16 ↔ x ≤ 2 ^ (-25 : ℤ)) ∧
    (2 ^ (-25 : ℤ) < x → x < 3 / 2 * 2 ^ (-24 : ℤ) → fpEncode mode a &&& 0x7FFF#16 = 0x0001#16) ∧
    (x = 3 / 2 * 2 ^ (-24 : ℤ) → fpEncode mode a &&& 0x7FFF#16 = 0x0002#16)

/-- Every binary64 subnormal gives a signed zero, by rounding (40_fp64_to_fp16.md section 3, derived there). -/
def Obligations.Binary64SubnormalsGiveSignedZero : Prop :=
  ∀ (a : Fp64) (s : State), class64 a = .subnormal →
    ∃ t, exec (.fp64ToFp16 a) s = .next t ∧ t.fp16Out = (if a.getLsbD 63 then 0x8000#16 else 0x0000#16) ∧
      t.outputs = s.outputs ++ [.fp16 t.fp16Out]

/-- Symmetry: flipping the sign of the input flips the sign of the result, for every input but a NaN in mode POSITIVE_CANONICAL
(40_fp64_to_fp16.md section 3, derived there). -/
def Obligations.EncodeCommutesWithNegation : Prop :=
  ∀ (mode : EncNanMode) (a : Fp64), (class64 a = .nan → mode ≠ .positiveCanonical) →
    fpEncode mode (a ^^^ 0x8000000000000000#64) = fpEncode mode a ^^^ 0x8000#16

/-- Monotonicity, −0 and +0 being equal and NaNs ordered with nothing (40_fp64_to_fp16.md section 3, derived there). -/
def Obligations.EncodeIsMonotone : Prop :=
  ∀ (mode : EncNanMode) (a b : Fp64), (value64 a).le (value64 b) = true →
    (value16 (fpEncode mode a)).le (value16 (fpEncode mode b)) = true

/-- A NaN comes out exactly when a NaN goes in, in every mode of both blocks, and it is quiet (40_fp64_to_fp16.md section 2,
41_fp16_to_fp64.md section 2). -/
def Obligations.NaNComesOutExactlyWhenNaNGoesIn : Prop :=
  (∀ (mode : EncNanMode) (a : Fp64), (class16 (fpEncode mode a) = .nan ↔ class64 a = .nan) ∧
    (class64 a = .nan → quietNan16 (fpEncode mode a) = true)) ∧
  (∀ (mode : DecNanMode) (h : Fp16), (class64 (fpDecode mode h) = .nan ↔ class16 h = .nan) ∧
    (class16 h = .nan → quietNan64 (fpDecode mode h) = true))

/-! ### fp16_to_fp64: completion, result of each input class, frame -/

/-- R149: for each DEC_NAN_MODE, exactly one result for each of the 65536 inputs, in every state, and no two patterns that are
not NaN, nor one of them and a NaN, share a result ("loss-free"). -/
def Obligations.DecodeIsTotalAndLossFree : Prop :=
  (∀ (mode : DecNanMode) (h : Fp16), ∃! d : Fp64, ∀ s : State, s.params.decNanMode = mode →
    ∃ t, exec (.fp16ToFp64 h) s = .next t ∧ t.fp64Out = d ∧ t.outputs = s.outputs ++ [.fp64 d]) ∧
  (∀ (mode : DecNanMode) (h k : Fp16), class16 h ≠ .nan → fpDecode mode h = fpDecode mode k → h = k)

/-- R142: a zero gives the signed zero. -/
def Obligations.DecodeOfZeroIsSignedZero : Prop :=
  ∀ (h : Fp16) (s : State), exponent16 h = 0 → mantissa16 h = 0 →
    ∃ t, exec (.fp16ToFp64 h) s = .next t ∧
      t.fp64Out = (if h = 0x0000#16 then 0x0000000000000000#64 else 0x8000000000000000#64) ∧
      (h = 0x0000#16 ∨ h = 0x8000#16) ∧
      t.outputs = s.outputs ++ [.fp64 t.fp64Out]

/-- A subnormal is normalised: with `p` the position of the leading one of `m`, exponent field `p + 999` and fraction
`(m − 2^p) × 2^(52 − p)` (41_fp16_to_fp64.md section 2; the binary64 bias in the constant is the spec's general knowledge). -/
def Obligations.DecodeNormalisesSubnormals : Prop :=
  ∀ (h : Fp16) (s : State), exponent16 h = 0 → mantissa16 h ≠ 0 →
    ∃ p t, p ≤ 9 ∧ 2 ^ p ≤ mantissa16 h ∧ mantissa16 h < 2 ^ (p + 1) ∧
      exec (.fp16ToFp64 h) s = .next t ∧
      t.fp64Out.toNat = 2 ^ 63 * sign16 h + 2 ^ 52 * (p + 999) + (mantissa16 h - 2 ^ p) * 2 ^ (52 - p) ∧
      t.outputs = s.outputs ++ [.fp64 t.fp64Out]

/-- A normal keeps its value: exponent field `e + 1008` and the mantissa in fraction bits 51:42 (41_fp16_to_fp64.md section 2; the
binary64 bias in the constant is the spec's general knowledge). -/
def Obligations.DecodeRebiasesNormals : Prop :=
  ∀ (h : Fp16) (s : State), 1 ≤ exponent16 h → exponent16 h ≤ 30 →
    ∃ t, exec (.fp16ToFp64 h) s = .next t ∧
      t.fp64Out.toNat = 2 ^ 63 * sign16 h + 2 ^ 52 * (exponent16 h + 1008) + 2 ^ 42 * mantissa16 h ∧
      t.outputs = s.outputs ++ [.fp64 t.fp64Out]

/-- R145: an infinity gives the infinity of its sign. -/
def Obligations.DecodeOfInfinityIsInfinity : Prop :=
  ∀ (h : Fp16) (s : State), exponent16 h = 31 → mantissa16 h = 0 →
    ∃ t, exec (.fp16ToFp64 h) s = .next t ∧
      t.fp64Out = (if h = 0x7C00#16 then 0x7FF0000000000000#64 else 0xFFF0000000000000#64) ∧
      (h = 0x7C00#16 ∨ h = 0xFC00#16) ∧
      t.outputs = s.outputs ++ [.fp64 t.fp64Out]

/-- A NaN gives the NaN of DEC_NAN_MODE: sign, quiet bit and payload; the sign and the canonical quiet NaN; or the positive
canonical one (41_fp16_to_fp64.md section 2, a decision of the spec, in every mode). -/
def Obligations.DecodeOfNaNFollowsTheMode : Prop :=
  ∀ (h : Fp16) (s : State), exponent16 h = 31 → mantissa16 h ≠ 0 →
    ∃ t, exec (.fp16ToFp64 h) s = .next t ∧
      t.fp64Out =
        (match s.params.decNanMode with
          | .payloadQuiet => h.extractLsb' 15 1 ++ 0x7FF#11 ++ 1#1 ++ h.extractLsb' 0 9 ++ 0#42
          | .signCanonical => if h.getLsbD 15 then 0xFFF8000000000000#64 else 0x7FF8000000000000#64
          | .positiveCanonical => 0x7FF8000000000000#64) ∧
      t.outputs = s.outputs ++ [.fp64 t.fp64Out]

/-- The frame of a decode application: it drives `fp16_in`, the host reads one word, and the encode block's input, the
build-time parameters and the rest of the script are as before (10_state.md sections 1 and 2, 60_exceptions.md section 3). The
application leaves the decode block settled, as one atomic step that holds for just `T_PD` (log 15, DEDUCED), and drive and read
take no time (log 12, DESIGN CHOICE): so the encode block's input has been steady for that `T_PD` more, its output is its own
input's conversion if it is settled by then, and if it was settled before, with the ports in agreement, its level is as before.
The decode block's steady time and the counter of draws may change. -/
def Obligations.DecodeApplicationFrame : Prop :=
  ∀ (h : Fp16) (s : State), ∃ t, exec (.fp16ToFp64 h) s = .next t ∧
    t.fp16In = h ∧ t.decSettled ∧ t.outputs = s.outputs ++ [.fp64 t.fp64Out] ∧
    t.fp64In = s.fp64In ∧ t.encHeld = s.encHeld + s.params.decTPd ∧
    (t.encSettled → t.fp16Out = fpEncode s.params.encNanMode s.fp64In) ∧
    (s.portsAgree → s.encSettled → t.fp16Out = s.fp16Out) ∧
    t.params = s.params ∧ t.script = s.script

/-- Exactness: the result of every pattern that is not a NaN denotes the pattern's own value, signs of zeros and infinities
included (41_fp16_to_fp64.md section 3, derived there). -/
def Obligations.DecodeIsExact : Prop :=
  ∀ (mode : DecNanMode) (h : Fp16), class16 h ≠ .nan → value64 (fpDecode mode h) = value16 h

/-- The output range: exponent field 0, 999 to 1038, or 2047; never a binary64 subnormal; fraction bits 41:0 zero
(41_fp16_to_fp64.md section 2, derived there). -/
def Obligations.DecodeOutputRange : Prop :=
  ∀ (mode : DecNanMode) (h : Fp16),
    (exponent64 (fpDecode mode h) = 0 ∨
      (999 ≤ exponent64 (fpDecode mode h) ∧ exponent64 (fpDecode mode h) ≤ 1038) ∨
      exponent64 (fpDecode mode h) = 2047) ∧
    class64 (fpDecode mode h) ≠ .subnormal ∧ (fpDecode mode h).extractLsb' 0 42 = 0#42

/-! ### Round trips -/

/-- Every pattern that is not a NaN comes back, in every mode of both blocks (41_fp16_to_fp64.md section 3, item 1). -/
def Obligations.EncodeOfDecodeIsIdentity : Prop :=
  ∀ (em : EncNanMode) (dm : DecNanMode) (h : Fp16), class16 h ≠ .nan → fpEncode em (fpDecode dm h) = h

/-- An input that is not a NaN comes back as the pattern of its rounded value, and as itself exactly when its value is
binary16-representable (41_fp16_to_fp64.md section 3, item 2; 90_conflicts.md C4). -/
def Obligations.DecodeOfEncodeIsTheRoundedInput : Prop :=
  ∀ (em : EncNanMode) (dm : DecNanMode) (a : Fp64), class64 a ≠ .nan →
    value64 (fpDecode dm (fpEncode em a)) = roundTo16 (value64 a) ∧
    (fpDecode dm (fpEncode em a) = a ↔ ∃ h : Fp16, value16 h = value64 a)

/-- The round trips of NaNs, under the default modes and with both modes PAYLOAD_QUIET (41_fp16_to_fp64.md section 3, item 3). -/
def Obligations.NaNRoundTrips : Prop :=
  (∀ h : Fp16, class16 h = .nan →
    fpEncode .signCanonical (fpDecode .payloadQuiet h) = (h &&& 0x8000#16) ||| 0x7E00#16 ∧
    fpEncode .payloadQuiet (fpDecode .payloadQuiet h) = h ||| 0x0200#16) ∧
  (∀ a : Fp64, class64 a = .nan →
    fpDecode .payloadQuiet (fpEncode .signCanonical a) = (a &&& 0x8000000000000000#64) ||| 0x7FF8000000000000#64)

/-! ### The machine -/

/-- When the stream at the head of the script decodes to an application, a step is that application's meaning, the script moved
past its bytes (R31 "one step per application"; the stream and the script are the model's, logs 5 and 8). -/
def Obligations.StepRunsTheDecodedApplication : Prop :=
  ∀ (s : State) (bytes rest : List Byte) (moves : List HostMove) (i : Instr),
    s.script = .apply bytes :: moves → decode s.params.byteOrder bytes = .ok (i, rest) →
    i.wellFormed = true ∧
    step s = exec i { s with script := if rest = [] then moves else .apply rest :: moves }

/-- A step is refused exactly when the stream at the head of the script ends inside an application: no input of a block and no
other move of the host is refused (60_exceptions.md section 1; logs 7 and 20). -/
def Obligations.StepRefusesOnlyBrokenStreams : Prop :=
  ∀ (s : State) (r : Refusal), step s = .refused r ↔
    ∃ b bs moves e, s.script = .apply (b :: bs) :: moves ∧ decode s.params.byteOrder (b :: bs) = .error e ∧
      r = .undecodable e

/-- Nothing ever stops a script of whole applications: no fault and no refusal, after any number of steps ("A model's step for
either block has no fault or refusal outcome", 60_exceptions.md section 1; log 7). -/
def Obligations.WholeScriptsRunSafely : Prop :=
  ∀ s : State, s.wholeScript = true → s.safeRun

/-- The invariant: every step keeps each settled output port equal to the conversion of its own input port, whatever the step was
and whatever the other block did (10_state.md section 1, 70_reset_and_hazards.md section 2; logs 12, 14 and 19). -/
def Obligations.StepKeepsPortsAgree : Prop :=
  ∀ s t : State, s.portsAgree → step s = .next t → t.portsAgree

/-- At reset neither output is settled, the invariant holds, and the build has the spec's default NaN modes (00_scope.md section 3,
70_reset_and_hazards.md section 1; it rests on the model's T_PD and times at reset, logs 4 and 12). -/
def Obligations.ResetIsUnsettledWithTheDefaultModes : Prop :=
  State.reset.portsAgree ∧ ¬State.reset.encSettled ∧ ¬State.reset.decSettled ∧
  State.reset.params.encNanMode = .signCanonical ∧ State.reset.params.decNanMode = .payloadQuiet

/-- "No input port changes it": no step changes a build-time parameter (00_scope.md section 3; carried in the state, log 1). -/
def Obligations.StepKeepsBuildParameters : Prop :=
  ∀ s t : State, step s = .next t → t.params = s.params

/-- No step takes back or changes a word the host has read: the outputs before a step are the first outputs after it
(95_test_vectors.md section 3; log 18). -/
def Obligations.StepOnlyAppendsOutputs : Prop :=
  ∀ s t : State, step s = .next t → ∃ xs, t.outputs = s.outputs ++ xs ∧ xs.length ≤ 1

/-- Drive, hold for at least `T_PD`, read: the host gets the conversion of what it drove, whatever `T_PD` is and whatever came
before (70_reset_and_hazards.md sections 2 and 4, decisions of the spec). The time the host spends on the other block counts:
where an application of that block takes at least this block's `T_PD` (it holds for its own `T_PD`, log 15), a pattern driven
before it reads as its conversion after it, since the output depends on "the value on its input port alone (once the input has been
stable for `T_PD`)" and not "on the other block" (10_state.md section 1; streams and scripts are logs 5 and 8). -/
def Obligations.HeldInputReadsAsItsConversion : Prop :=
  (∀ (s : State) (a : Fp64) (d : Nat) (moves : List HostMove),
    s.script = .driveFp64In a :: .hold d :: .readFp16Out :: moves → s.params.encTPd ≤ d →
    ∃ t, Sys2Proof.core.run 3 s = .next t ∧ t.script = moves ∧
      t.outputs = s.outputs ++ [.fp16 (fpEncode s.params.encNanMode a)]) ∧
  (∀ (s : State) (h : Fp16) (d : Nat) (moves : List HostMove),
    s.script = .driveFp16In h :: .hold d :: .readFp64Out :: moves → s.params.decTPd ≤ d →
    ∃ t, Sys2Proof.core.run 3 s = .next t ∧ t.script = moves ∧
      t.outputs = s.outputs ++ [.fp64 (fpDecode s.params.decNanMode h)]) ∧
  (∀ (s : State) (a : Fp64) (h : Fp16) (moves : List HostMove),
    s.script = .driveFp64In a :: .apply (encode s.params.byteOrder (.fp16ToFp64 h)) :: .readFp16Out :: moves →
    s.params.encTPd ≤ s.params.decTPd →
    ∃ t, Sys2Proof.core.run 3 s = .next t ∧ t.script = moves ∧
      t.outputs = s.outputs ++
        [.fp64 (fpDecode s.params.decNanMode h), .fp16 (fpEncode s.params.encNanMode a)]) ∧
  (∀ (s : State) (h : Fp16) (a : Fp64) (moves : List HostMove),
    s.script = .driveFp16In h :: .apply (encode s.params.byteOrder (.fp64ToFp16 a)) :: .readFp64Out :: moves →
    s.params.decTPd ≤ s.params.encTPd →
    ∃ t, Sys2Proof.core.run 3 s = .next t ∧ t.script = moves ∧
      t.outputs = s.outputs ++
        [.fp16 (fpEncode s.params.encNanMode a), .fp64 (fpDecode s.params.decNanMode h)])

/-- Read too early: the host gets a draw, a free value no law constrains, and no port changes (70_reset_and_hazards.md sections 1
and 2, decisions of the spec; log 13). -/
def Obligations.EarlyReadIsADraw : Prop :=
  (∀ (s : State) (moves : List HostMove), s.script = .readFp16Out :: moves → s.encHeld < s.params.encTPd →
    ∃ t, step s = .next t ∧ t.outputs = s.outputs ++ [.fp16 (Config.encDraw s.draws)] ∧
      t.encSide = s.encSide ∧ t.decSide = s.decSide ∧ t.script = moves) ∧
  (∀ (s : State) (moves : List HostMove), s.script = .readFp64Out :: moves → s.decHeld < s.params.decTPd →
    ∃ t, step s = .next t ∧ t.outputs = s.outputs ++ [.fp64 (Config.decDraw s.draws)] ∧
      t.encSide = s.encSide ∧ t.decSide = s.decSide ∧ t.script = moves)

/-- Applications do not affect each other: after any application, the next one gives what it would have given without it
(20_memory.md section 4, derived there). -/
def Obligations.ApplicationsDoNotInteract : Prop :=
  ∀ (i j : Instr) (s : State), ∃ t u v x,
    exec j s = .next t ∧ exec i t = .next u ∧ exec i s = .next v ∧
    v.outputs = s.outputs ++ [x] ∧ u.outputs = t.outputs ++ [x]

/-- A batch on the hardware is the host applying a block once per element: the steps over a stream of applications read the
batch's results, by position, and use the stream up (42_host_wrappers.md section 3, a decision of the spec; logs 5 and 8). -/
def Obligations.StreamOfApplicationsIsTheBatch : Prop :=
  (∀ (s : State) (xs : List Fp64) (moves : List HostMove), xs ≠ [] →
    s.script = .apply (xs.flatMap fun a => encode s.params.byteOrder (.fp64ToFp16 a)) :: moves →
    ∃ t, Sys2Proof.core.run xs.length s = .next t ∧ t.script = moves ∧
      t.outputs = s.outputs ++ (encodeBatch s.params.encNanMode xs).map .fp16) ∧
  (∀ (s : State) (hs : List Fp16) (moves : List HostMove), hs ≠ [] →
    s.script = .apply (hs.flatMap fun h => encode s.params.byteOrder (.fp16ToFp64 h)) :: moves →
    ∃ t, Sys2Proof.core.run hs.length s = .next t ∧ t.script = moves ∧
      t.outputs = s.outputs ++ (decodeBatch s.params.decNanMode hs).map .fp64)

/-! ### The host's predicates and wrappers (not hardware) -/

/-- The conditions a host can compute, each holding exactly when 60_exceptions.md section 1 says (derived there). -/
def Obligations.HostPredicatesMeanTheirConditions : Prop :=
  (∀ (mode : EncNanMode) (a : Fp64),
    (hostOverflow mode a = true ↔ ∃ s x, value64 a = .finite s x ∧ 65520 ≤ x) ∧
    (hostRoundedToZero mode a = true ↔ ∃ s x, value64 a = .finite s x ∧ 0 < x ∧ x ≤ 2 ^ (-25 : ℤ)) ∧
    (hostTiny mode a = true ↔
      ∃ s x y, value64 a = .finite s x ∧ 0 < x ∧ value16 (fpEncode mode a) = .finite s y ∧ y < 2 ^ (-14 : ℤ))) ∧
  (∀ (em : EncNanMode) (dm : DecNanMode) (a : Fp64), class64 a ≠ .nan →
    (hostInexact em dm a = true ↔ value16 (fpEncode em a) ≠ value64 a)) ∧
  (∀ a : Fp64, hostSignallingInput a = signallingNan64 a)

/-- R170: `to_hex(b)` is `0x` and the digits of b[15:12], b[11:8], b[7:4], b[3:0]. -/
def Obligations.ToHexSpellsTheFourDigits : Prop :=
  ∀ b : Fp16,
    let digit := fun n : Nat =>
      (['0', '1', '2', '3', '4', '5', '6', '7', '8', '9', 'A', 'B', 'C', 'D', 'E', 'F'] : List Char)[n]?
    (toHex b).map some = [some '0', some 'x', digit (b.extractLsb' 12 4).toNat, digit (b.extractLsb' 8 4).toNat,
      digit (b.extractLsb' 4 4).toNat, digit (b.extractLsb' 0 4).toNat]

/-- R171: `from_hex(t)` accepts exactly an optional `0x` or `0X` and one to four hexadecimal digits in either case, and returns
them read as a base-16 number. -/
def Obligations.FromHexAcceptsExactlyTheTokens : Prop :=
  ∀ (t : Token) (b : Fp16), fromHex t = .ok b ↔
    ∃ (pre ds : Token) (vs : List Nat), t = pre ++ ds ∧ (pre = [] ∨ pre = ['0', 'x'] ∨ pre = ['0', 'X']) ∧
      1 ≤ ds.length ∧ ds.length ≤ 4 ∧
      List.Forall₂ (fun c v =>
        (['0', '1', '2', '3', '4', '5', '6', '7', '8', '9', 'A', 'B', 'C', 'D', 'E', 'F'] : List Char)[v]? = some c ∨
        (['0', '1', '2', '3', '4', '5', '6', '7', '8', '9', 'a', 'b', 'c', 'd', 'e', 'f'] : List Char)[v]? = some c) ds vs ∧
      b.toNat = vs.foldl (fun acc v => 16 * acc + v) 0

/-- Every token not accepted fails, and the failure carries it; the source's cases and whitespace among them
(42_host_wrappers.md section 2, a decision of the spec). -/
def Obligations.FromHexFailureCarriesTheToken : Prop :=
  (∀ t : Token, (∃ b, fromHex t = .ok b) ∨ fromHex t = .error ⟨t⟩) ∧
  fromHex [] = .error ⟨[]⟩ ∧ fromHex ['0', 'x'] = .error ⟨['0', 'x']⟩ ∧
  fromHex ['0', 'x', 'G', 'G', 'G', 'G'] = .error ⟨['0', 'x', 'G', 'G', 'G', 'G']⟩ ∧
  fromHex ['0', 'x', '1', '2', '3', '4', '5'] = .error ⟨['0', 'x', '1', '2', '3', '4', '5']⟩ ∧
  fromHex ['0', 'x', '0', '0', '0', '0', '1'] = .error ⟨['0', 'x', '0', '0', '0', '0', '1']⟩ ∧
  fromHex [' ', '0', 'x', '1'] = .error ⟨[' ', '0', 'x', '1']⟩

/-- The hex round trip, and `to_hex` of an accepted token's number is the token's canonical form: prefix `0x`, its digits in
uppercase, padded to four with zeros (42_host_wrappers.md section 2, derived there). -/
def Obligations.HexRoundTrip : Prop :=
  (∀ b : Fp16, fromHex (toHex b) = .ok b) ∧
  (∀ (t : Token) (b : Fp16), fromHex t = .ok b →
    toHex b = ['0', 'x'] ++ List.replicate (4 - (afterPrefix t).length) '0' ++ (afterPrefix t).map Char.toUpper)

/-- R175: the batches apply the scalar operation to each element, in order and length; the empty batch is empty; the source's
example. -/
def Obligations.BatchesAreElementWise : Prop :=
  (∀ (mode : EncNanMode) (xs : List Fp64), (encodeBatch mode xs).length = xs.length ∧
    ∀ i : Nat, (encodeBatch mode xs)[i]? = xs[i]?.map (fpEncode mode)) ∧
  (∀ (mode : DecNanMode) (hs : List Fp16), (decodeBatch mode hs).length = hs.length ∧
    ∀ i : Nat, (decodeBatch mode hs)[i]? = hs[i]?.map (fpDecode mode)) ∧
  (∀ mode : EncNanMode, encodeBatch mode [] = [] ∧
    encodeBatch mode [0x0000000000000000, 0x3FF8000000000000, 0xC004000000000000] = [0x0000, 0x3E00, 0xC100]) ∧
  (∀ mode : DecNanMode, decodeBatch mode [] = [])

/-- A from_hex batch is all or nothing and reports the lowest failing element and its token (42_host_wrappers.md section 3, a
decision of the spec); a to_hex batch has its input's length and is `to_hex` of each element, by position, and the from_hex
batch undoes it. -/
def Obligations.FromHexBatchReportsTheFirstFailure : Prop :=
  (∀ (ts : List Token) (bs : List Fp16), fromHexBatch ts = .ok bs ↔ ts.map fromHex = bs.map .ok) ∧
  (∀ (ts : List Token) (i : Nat) (e : InvalidHexFormat), fromHexBatch ts = .error ⟨i, e⟩ ↔
    ts[i]?.map fromHex = some (.error e) ∧ ∀ j < i, ∃ b, ts[j]?.map fromHex = some (.ok b)) ∧
  (∀ (bs : List Fp16), (toHexBatch bs).length = bs.length ∧
    (∀ i : Nat, (toHexBatch bs)[i]? = bs[i]?.map toHex) ∧ fromHexBatch (toHexBatch bs) = .ok bs)

/-! ### The host's single moves -/

/-- A new pattern on an input starts its steady time again, whatever was settled before: read at once, or after holding it for
less than `T_PD`, the output is a draw not yet used ("The host must hold an input value steady for at least `T_PD` before it
reads", 70_reset_and_hazards.md section 2, a decision of the spec; free values: log 13). The pattern already on the input
leaves it steady, so a settled block reads as that pattern's conversion at once (log 14, the model's choice). -/
def Obligations.NewPatternRestartsTheSteadyTime : Prop :=
  (∀ (s : State) (a : Fp64) (moves : List HostMove),
    s.script = .driveFp64In a :: .readFp16Out :: moves → a ≠ s.fp64In → 0 < s.params.encTPd →
    ∃ t n, Sys2Proof.core.run 2 s = .next t ∧ s.draws ≤ n ∧
      t.outputs = s.outputs ++ [.fp16 (Config.encDraw n)] ∧ t.script = moves) ∧
  (∀ (s : State) (a : Fp64) (d : Nat) (moves : List HostMove),
    s.script = .driveFp64In a :: .hold d :: .readFp16Out :: moves → a ≠ s.fp64In → d < s.params.encTPd →
    ∃ t n, Sys2Proof.core.run 3 s = .next t ∧ s.draws ≤ n ∧
      t.outputs = s.outputs ++ [.fp16 (Config.encDraw n)] ∧ t.script = moves) ∧
  (∀ (s : State) (a : Fp64) (moves : List HostMove),
    s.script = .driveFp64In a :: .readFp16Out :: moves → a = s.fp64In → s.encSettled →
    ∃ t, Sys2Proof.core.run 2 s = .next t ∧
      t.outputs = s.outputs ++ [.fp16 (fpEncode s.params.encNanMode a)] ∧ t.script = moves) ∧
  (∀ (s : State) (h : Fp16) (moves : List HostMove),
    s.script = .driveFp16In h :: .readFp64Out :: moves → h ≠ s.fp16In → 0 < s.params.decTPd →
    ∃ t n, Sys2Proof.core.run 2 s = .next t ∧ s.draws ≤ n ∧
      t.outputs = s.outputs ++ [.fp64 (Config.decDraw n)] ∧ t.script = moves) ∧
  (∀ (s : State) (h : Fp16) (d : Nat) (moves : List HostMove),
    s.script = .driveFp16In h :: .hold d :: .readFp64Out :: moves → h ≠ s.fp16In → d < s.params.decTPd →
    ∃ t n, Sys2Proof.core.run 3 s = .next t ∧ s.draws ≤ n ∧
      t.outputs = s.outputs ++ [.fp64 (Config.decDraw n)] ∧ t.script = moves) ∧
  (∀ (s : State) (h : Fp16) (moves : List HostMove),
    s.script = .driveFp16In h :: .readFp64Out :: moves → h = s.fp16In → s.decSettled →
    ∃ t, Sys2Proof.core.run 2 s = .next t ∧
      t.outputs = s.outputs ++ [.fp64 (fpDecode s.params.decNanMode h)] ∧ t.script = moves)

/-- The frame of a drive, of a hold and of a settled read. A drive leaves the other block's ports and steady time as before, and so
does a settled read, which gives the level on the port and changes no port. A hold leaves both inputs as they are and lets its
time pass for both blocks: each settled output is then its own input's conversion, and one that was settled before, with the
ports in agreement, is as before. The build-time parameters and the rest of the script are as before, and only a read reads
(10_state.md sections 1 and 2, 20_memory.md section 3, 70_reset_and_hazards.md section 4; the moves and the script are log 8's).
That a drive and a read take no time is the model's choice (log 12). -/
def Obligations.DriveHoldAndReadFrames : Prop :=
  (∀ (s : State) (a : Fp64) (moves : List HostMove), s.script = .driveFp64In a :: moves →
    ∃ t, step s = .next t ∧ t.fp64In = a ∧ t.decSide = s.decSide ∧
      t.params = s.params ∧ t.outputs = s.outputs ∧ t.script = moves) ∧
  (∀ (s : State) (h : Fp16) (moves : List HostMove), s.script = .driveFp16In h :: moves →
    ∃ t, step s = .next t ∧ t.fp16In = h ∧ t.encSide = s.encSide ∧
      t.params = s.params ∧ t.outputs = s.outputs ∧ t.script = moves) ∧
  (∀ (s : State) (d : Nat) (moves : List HostMove), s.script = .hold d :: moves →
    ∃ t, step s = .next t ∧ t.fp64In = s.fp64In ∧ t.fp16In = s.fp16In ∧
      t.encHeld = s.encHeld + d ∧ t.decHeld = s.decHeld + d ∧
      (t.encSettled → t.fp16Out = fpEncode s.params.encNanMode s.fp64In) ∧
      (t.decSettled → t.fp64Out = fpDecode s.params.decNanMode s.fp16In) ∧
      (s.portsAgree → s.encSettled → t.fp16Out = s.fp16Out) ∧
      (s.portsAgree → s.decSettled → t.fp64Out = s.fp64Out) ∧
      t.params = s.params ∧ t.outputs = s.outputs ∧ t.script = moves) ∧
  (∀ (s : State) (moves : List HostMove), s.script = .readFp16Out :: moves → s.encSettled →
    ∃ t, step s = .next t ∧ t.outputs = s.outputs ++ [.fp16 s.fp16Out] ∧
      t.encSide = s.encSide ∧ t.decSide = s.decSide ∧ t.params = s.params ∧ t.script = moves) ∧
  (∀ (s : State) (moves : List HostMove), s.script = .readFp64Out :: moves → s.decSettled →
    ∃ t, step s = .next t ∧ t.outputs = s.outputs ++ [.fp64 s.fp64Out] ∧
      t.encSide = s.encSide ∧ t.decSide = s.decSide ∧ t.params = s.params ∧ t.script = moves)
end

