-- ==== Sys2Proof/Laws/Convert.lean ====
section
/-! SUPPORT. Small lemmas of the fields, the rounding shift and the packing, so that proofs need not unfold shifts and masks. -/

namespace Sys2Proof.Machine

/-! ### Fields -/

theorem sign64_le_one (a : Fp64) : sign64 a ≤ 1 := by
  have := a.isLt
  simp only [sign64, Nat.shiftRight_eq_div_pow]
  omega

theorem exponent64_lt (a : Fp64) : exponent64 a < 2048 := Nat.mod_lt _ (by decide)

theorem fraction64_lt (a : Fp64) : fraction64 a < 2 ^ 52 := Nat.mod_lt _ (by decide)

/-- A binary64 pattern is its three fields (R62). -/
theorem toNat_eq_fields64 (a : Fp64) : a.toNat = sign64 a * 2 ^ 63 + exponent64 a * 2 ^ 52 + fraction64 a := by
  have := a.isLt
  simp only [sign64, exponent64, fraction64, Nat.shiftRight_eq_div_pow]
  omega

theorem sign16_le_one (h : Fp16) : sign16 h ≤ 1 := by
  have := h.isLt
  simp only [sign16, Nat.shiftRight_eq_div_pow]
  omega

theorem exponent16_lt (h : Fp16) : exponent16 h < 32 := Nat.mod_lt _ (by decide)

theorem mantissa16_lt (h : Fp16) : mantissa16 h < 1024 := Nat.mod_lt _ (by decide)

/-- A binary16 pattern is its three fields (R60). -/
theorem toNat_eq_fields16 (h : Fp16) : h.toNat = sign16 h * 2 ^ 15 + exponent16 h * 2 ^ 10 + mantissa16 h := by
  have := h.isLt
  simp only [sign16, exponent16, mantissa16, Nat.shiftRight_eq_div_pow]
  omega

/-! ### Packing -/

/-- `a << k | b` is `a * 2^k + b` when `b` fits below bit `k`. -/
theorem shiftLeft_or_eq_add {a b k : Nat} (h : b < 2 ^ k) : (a <<< k) ||| b = a * 2 ^ k + b := by
  rw [Nat.shiftLeft_eq, Nat.mul_comm, Nat.two_pow_add_eq_or_of_lt h]

/-! ### `RNE_SHIFT` -/

theorem rneShift_eq (M k : Nat) :
    rneShift M k = M / 2 ^ k +
      if 2 ^ (k - 1) < M % 2 ^ k ∨ (M % 2 ^ k = 2 ^ (k - 1) ∧ M / 2 ^ k % 2 = 1) then 1 else 0 := by
  simp only [rneShift, Nat.shiftRight_eq_div_pow]
  split <;> rfl

theorem rneShift_ge (M k : Nat) : M / 2 ^ k ≤ rneShift M k := by
  rw [rneShift_eq]; omega

theorem rneShift_le (M k : Nat) : rneShift M k ≤ M / 2 ^ k + 1 := by
  rw [rneShift_eq]; split <;> omega

/-! ### The magnitude fits below the sign bit -/

/-- The normal range's `n` (R109). -/
theorem rneShift_42_bounds {M : Nat} (hlo : 2 ^ 52 ≤ M) (hhi : M < 2 ^ 53) :
    1024 ≤ rneShift M 42 ∧ rneShift M 42 ≤ 2048 := by
  have h1 := rneShift_ge M 42
  have h2 := rneShift_le M 42
  omega

theorem significand64_lt {E F : Nat} (h : F < 2 ^ 52) : significand64 E F < 2 ^ 53 := by
  simp only [significand64]; split <;> omega

end Sys2Proof.Machine
end

