-- ==== Sys2Proof/Laws/Decode.lean ====
section
/-! SUPPORT. Small lemmas of the decoder and the encoder. -/

namespace Sys2Proof

@[simp] theorem leBytes_length (n v : Nat) : (leBytes n v).length = n := by
  induction n generalizing v with
  | zero => rfl
  | succ n ih => simp [leBytes, ih]

@[simp] theorem wordBytes_length (o : ByteOrder) (n v : Nat) : (wordBytes o n v).length = n := by
  cases o <;> simp [wordBytes]

/-- The bytes of a word spell the word. -/
theorem leNat_leBytes (n v : Nat) (h : v < 256 ^ n) : leNat (leBytes n v) = v := by
  induction n generalizing v with
  | zero => simp at h; simp [leBytes, leNat, h]
  | succ n ih =>
    have hv : v / 256 < 256 ^ n := Nat.div_lt_of_lt_mul (by rw [pow_succ] at h; omega)
    simp only [leBytes, leNat, ih _ hv, BitVec.toNat_ofNat]
    omega

/-- In either BYTE_ORDER (20_memory.md R44). -/
theorem wordNat_wordBytes (o : ByteOrder) (n v : Nat) (h : v < 256 ^ n) : wordNat o (wordBytes o n v) = v := by
  cases o <;> simp [wordNat, wordBytes, leNat_leBytes n v h]

@[simp] theorem decode_nil (o : ByteOrder) : decode o [] = .error .noSelector := rfl

theorem decode_op0 (o : ByteOrder) (sel : Byte) (rest : List Byte) (h : sel.getLsbD 0 = false) (hl : 8 ≤ rest.length) :
    decode o (sel :: rest) = .ok (.fp64ToFp16 (BitVec.ofNat 64 (wordNat o (rest.take 8))), rest.drop 8) := by
  simp only [decode, h]
  simp [Nat.not_lt.mpr hl]

theorem decode_op1 (o : ByteOrder) (sel : Byte) (rest : List Byte) (h : sel.getLsbD 0 = true) (hl : 2 ≤ rest.length) :
    decode o (sel :: rest) = .ok (.fp16ToFp64 (BitVec.ofNat 16 (wordNat o (rest.take 2))), rest.drop 2) := by
  simp only [decode, h]
  simp [Nat.not_lt.mpr hl]

/-- A stream of whole applications that is not used up decodes, and what is left is whole again. -/
theorem decode_whole (o : ByteOrder) (b : Byte) (bs : List Byte) (h : wholeApplications (b :: bs) = true) :
    ∃ i rest, decode o (b :: bs) = .ok (i, rest) ∧ wholeApplications rest = true := by
  unfold wholeApplications at h
  split at h
  · next hb => exact ⟨_, _, decode_op1 o b _ hb (by simp), h⟩
  · next hb => exact ⟨_, _, decode_op0 o b _ hb (by simp), h⟩
  · simp at h

end Sys2Proof
end

