-- ==== Sys2Proof/Laws/State.lean ====
section
/-! SUPPORT. One lemma per field per operation on the state, so that no proof unfolds a record update. -/

namespace Sys2Proof.Machine.State

/-! ### `refreshEnc` -/

@[simp] theorem refreshEnc_params (s : State) : s.refreshEnc.params = s.params := rfl
@[simp] theorem refreshEnc_fp64In (s : State) : s.refreshEnc.fp64In = s.fp64In := rfl
@[simp] theorem refreshEnc_fp16Out (s : State) :
    s.refreshEnc.fp16Out =
      if s.encSettled then fpEncode s.params.encNanMode s.fp64In else Config.encDraw s.draws := rfl
@[simp] theorem refreshEnc_encHeld (s : State) : s.refreshEnc.encHeld = s.encHeld := rfl
@[simp] theorem refreshEnc_fp16In (s : State) : s.refreshEnc.fp16In = s.fp16In := rfl
@[simp] theorem refreshEnc_fp64Out (s : State) : s.refreshEnc.fp64Out = s.fp64Out := rfl
@[simp] theorem refreshEnc_decHeld (s : State) : s.refreshEnc.decHeld = s.decHeld := rfl
@[simp] theorem refreshEnc_script (s : State) : s.refreshEnc.script = s.script := rfl
@[simp] theorem refreshEnc_outputs (s : State) : s.refreshEnc.outputs = s.outputs := rfl
@[simp] theorem refreshEnc_draws (s : State) : s.refreshEnc.draws = s.draws + 1 := rfl

/-! ### `refreshDec` -/

@[simp] theorem refreshDec_params (s : State) : s.refreshDec.params = s.params := rfl
@[simp] theorem refreshDec_fp64In (s : State) : s.refreshDec.fp64In = s.fp64In := rfl
@[simp] theorem refreshDec_fp16Out (s : State) : s.refreshDec.fp16Out = s.fp16Out := rfl
@[simp] theorem refreshDec_encHeld (s : State) : s.refreshDec.encHeld = s.encHeld := rfl
@[simp] theorem refreshDec_fp16In (s : State) : s.refreshDec.fp16In = s.fp16In := rfl
@[simp] theorem refreshDec_fp64Out (s : State) :
    s.refreshDec.fp64Out =
      if s.decSettled then fpDecode s.params.decNanMode s.fp16In else Config.decDraw s.draws := rfl
@[simp] theorem refreshDec_decHeld (s : State) : s.refreshDec.decHeld = s.decHeld := rfl
@[simp] theorem refreshDec_script (s : State) : s.refreshDec.script = s.script := rfl
@[simp] theorem refreshDec_outputs (s : State) : s.refreshDec.outputs = s.outputs := rfl
@[simp] theorem refreshDec_draws (s : State) : s.refreshDec.draws = s.draws + 1 := rfl

/-! ### `driveFp64In` -/

@[simp] theorem driveFp64In_params (s : State) (a : Fp64) : (s.driveFp64In a).params = s.params := rfl
@[simp] theorem driveFp64In_fp64In (s : State) (a : Fp64) : (s.driveFp64In a).fp64In = a := rfl
@[simp] theorem driveFp64In_fp16Out (s : State) (a : Fp64) :
    (s.driveFp64In a).fp16Out =
      if s.params.encTPd ≤ (if a = s.fp64In then s.encHeld else 0) then fpEncode s.params.encNanMode a else Config.encDraw s.draws := rfl
@[simp] theorem driveFp64In_encHeld (s : State) (a : Fp64) :
    (s.driveFp64In a).encHeld =
      if a = s.fp64In then s.encHeld else 0 := rfl
@[simp] theorem driveFp64In_fp16In (s : State) (a : Fp64) : (s.driveFp64In a).fp16In = s.fp16In := rfl
@[simp] theorem driveFp64In_fp64Out (s : State) (a : Fp64) : (s.driveFp64In a).fp64Out = s.fp64Out := rfl
@[simp] theorem driveFp64In_decHeld (s : State) (a : Fp64) : (s.driveFp64In a).decHeld = s.decHeld := rfl
@[simp] theorem driveFp64In_script (s : State) (a : Fp64) : (s.driveFp64In a).script = s.script := rfl
@[simp] theorem driveFp64In_outputs (s : State) (a : Fp64) : (s.driveFp64In a).outputs = s.outputs := rfl
@[simp] theorem driveFp64In_draws (s : State) (a : Fp64) : (s.driveFp64In a).draws = s.draws + 1 := rfl

/-! ### `driveFp16In` -/

@[simp] theorem driveFp16In_params (s : State) (h : Fp16) : (s.driveFp16In h).params = s.params := rfl
@[simp] theorem driveFp16In_fp64In (s : State) (h : Fp16) : (s.driveFp16In h).fp64In = s.fp64In := rfl
@[simp] theorem driveFp16In_fp16Out (s : State) (h : Fp16) : (s.driveFp16In h).fp16Out = s.fp16Out := rfl
@[simp] theorem driveFp16In_encHeld (s : State) (h : Fp16) : (s.driveFp16In h).encHeld = s.encHeld := rfl
@[simp] theorem driveFp16In_fp16In (s : State) (h : Fp16) : (s.driveFp16In h).fp16In = h := rfl
@[simp] theorem driveFp16In_fp64Out (s : State) (h : Fp16) :
    (s.driveFp16In h).fp64Out =
      if s.params.decTPd ≤ (if h = s.fp16In then s.decHeld else 0) then fpDecode s.params.decNanMode h else Config.decDraw s.draws := rfl
@[simp] theorem driveFp16In_decHeld (s : State) (h : Fp16) :
    (s.driveFp16In h).decHeld =
      if h = s.fp16In then s.decHeld else 0 := rfl
@[simp] theorem driveFp16In_script (s : State) (h : Fp16) : (s.driveFp16In h).script = s.script := rfl
@[simp] theorem driveFp16In_outputs (s : State) (h : Fp16) : (s.driveFp16In h).outputs = s.outputs := rfl
@[simp] theorem driveFp16In_draws (s : State) (h : Fp16) : (s.driveFp16In h).draws = s.draws + 1 := rfl

/-! ### `hold` -/

@[simp] theorem hold_params (s : State) (d : Nat) : (s.hold d).params = s.params := rfl
@[simp] theorem hold_fp64In (s : State) (d : Nat) : (s.hold d).fp64In = s.fp64In := rfl
@[simp] theorem hold_fp16Out (s : State) (d : Nat) :
    (s.hold d).fp16Out =
      if s.params.encTPd ≤ s.encHeld + d then fpEncode s.params.encNanMode s.fp64In else Config.encDraw s.draws := rfl
@[simp] theorem hold_encHeld (s : State) (d : Nat) : (s.hold d).encHeld = s.encHeld + d := rfl
@[simp] theorem hold_fp16In (s : State) (d : Nat) : (s.hold d).fp16In = s.fp16In := rfl
@[simp] theorem hold_fp64Out (s : State) (d : Nat) :
    (s.hold d).fp64Out =
      if s.params.decTPd ≤ s.decHeld + d then fpDecode s.params.decNanMode s.fp16In else Config.decDraw (s.draws + 1) := rfl
@[simp] theorem hold_decHeld (s : State) (d : Nat) : (s.hold d).decHeld = s.decHeld + d := rfl
@[simp] theorem hold_script (s : State) (d : Nat) : (s.hold d).script = s.script := rfl
@[simp] theorem hold_outputs (s : State) (d : Nat) : (s.hold d).outputs = s.outputs := rfl
@[simp] theorem hold_draws (s : State) (d : Nat) : (s.hold d).draws = s.draws + 1 + 1 := rfl

/-! ### `readFp16Out` -/

@[simp] theorem readFp16Out_params (s : State) : s.readFp16Out.params = s.params := rfl
@[simp] theorem readFp16Out_fp64In (s : State) : s.readFp16Out.fp64In = s.fp64In := rfl
@[simp] theorem readFp16Out_fp16Out (s : State) : s.readFp16Out.fp16Out = s.fp16Out := rfl
@[simp] theorem readFp16Out_encHeld (s : State) : s.readFp16Out.encHeld = s.encHeld := rfl
@[simp] theorem readFp16Out_fp16In (s : State) : s.readFp16Out.fp16In = s.fp16In := rfl
@[simp] theorem readFp16Out_fp64Out (s : State) : s.readFp16Out.fp64Out = s.fp64Out := rfl
@[simp] theorem readFp16Out_decHeld (s : State) : s.readFp16Out.decHeld = s.decHeld := rfl
@[simp] theorem readFp16Out_script (s : State) : s.readFp16Out.script = s.script := rfl
@[simp] theorem readFp16Out_outputs (s : State) : s.readFp16Out.outputs = s.outputs ++ [.fp16 s.fp16OutSeen] := rfl
@[simp] theorem readFp16Out_draws (s : State) : s.readFp16Out.draws = s.draws + 1 := rfl

/-! ### `readFp64Out` -/

@[simp] theorem readFp64Out_params (s : State) : s.readFp64Out.params = s.params := rfl
@[simp] theorem readFp64Out_fp64In (s : State) : s.readFp64Out.fp64In = s.fp64In := rfl
@[simp] theorem readFp64Out_fp16Out (s : State) : s.readFp64Out.fp16Out = s.fp16Out := rfl
@[simp] theorem readFp64Out_encHeld (s : State) : s.readFp64Out.encHeld = s.encHeld := rfl
@[simp] theorem readFp64Out_fp16In (s : State) : s.readFp64Out.fp16In = s.fp16In := rfl
@[simp] theorem readFp64Out_fp64Out (s : State) : s.readFp64Out.fp64Out = s.fp64Out := rfl
@[simp] theorem readFp64Out_decHeld (s : State) : s.readFp64Out.decHeld = s.decHeld := rfl
@[simp] theorem readFp64Out_script (s : State) : s.readFp64Out.script = s.script := rfl
@[simp] theorem readFp64Out_outputs (s : State) : s.readFp64Out.outputs = s.outputs ++ [.fp64 s.fp64OutSeen] := rfl
@[simp] theorem readFp64Out_draws (s : State) : s.readFp64Out.draws = s.draws + 1 := rfl

/-! ### `resumeStream` and `withFetchWord` -/

@[simp] theorem resumeStream_params (s : State) (bs : List Byte) : (s.resumeStream bs).params = s.params := by
  cases bs <;> rfl
@[simp] theorem resumeStream_fp64In (s : State) (bs : List Byte) : (s.resumeStream bs).fp64In = s.fp64In := by
  cases bs <;> rfl
@[simp] theorem resumeStream_fp16Out (s : State) (bs : List Byte) : (s.resumeStream bs).fp16Out = s.fp16Out := by
  cases bs <;> rfl
@[simp] theorem resumeStream_encHeld (s : State) (bs : List Byte) : (s.resumeStream bs).encHeld = s.encHeld := by
  cases bs <;> rfl
@[simp] theorem resumeStream_fp16In (s : State) (bs : List Byte) : (s.resumeStream bs).fp16In = s.fp16In := by
  cases bs <;> rfl
@[simp] theorem resumeStream_fp64Out (s : State) (bs : List Byte) : (s.resumeStream bs).fp64Out = s.fp64Out := by
  cases bs <;> rfl
@[simp] theorem resumeStream_decHeld (s : State) (bs : List Byte) : (s.resumeStream bs).decHeld = s.decHeld := by
  cases bs <;> rfl
@[simp] theorem resumeStream_outputs (s : State) (bs : List Byte) : (s.resumeStream bs).outputs = s.outputs := by
  cases bs <;> rfl
@[simp] theorem resumeStream_draws (s : State) (bs : List Byte) : (s.resumeStream bs).draws = s.draws := by
  cases bs <;> rfl
@[simp] theorem resumeStream_nil (s : State) : s.resumeStream [] = s := rfl
@[simp] theorem resumeStream_cons (s : State) (b : Byte) (bs : List Byte) :
    s.resumeStream (b :: bs) = { s with script := .apply (b :: bs) :: s.script } := rfl

@[simp] theorem withFetchWord_params (s : State) (nbits w : Nat) : (s.withFetchWord nbits w).params = s.params := rfl
@[simp] theorem withFetchWord_fp64In (s : State) (nbits w : Nat) : (s.withFetchWord nbits w).fp64In = s.fp64In := rfl
@[simp] theorem withFetchWord_fp16Out (s : State) (nbits w : Nat) :
    (s.withFetchWord nbits w).fp16Out = s.fp16Out := rfl
@[simp] theorem withFetchWord_encHeld (s : State) (nbits w : Nat) :
    (s.withFetchWord nbits w).encHeld = s.encHeld := rfl
@[simp] theorem withFetchWord_fp16In (s : State) (nbits w : Nat) : (s.withFetchWord nbits w).fp16In = s.fp16In := rfl
@[simp] theorem withFetchWord_fp64Out (s : State) (nbits w : Nat) :
    (s.withFetchWord nbits w).fp64Out = s.fp64Out := rfl
@[simp] theorem withFetchWord_decHeld (s : State) (nbits w : Nat) :
    (s.withFetchWord nbits w).decHeld = s.decHeld := rfl
@[simp] theorem withFetchWord_script (s : State) (nbits w : Nat) :
    (s.withFetchWord nbits w).script = .apply (tableBytes s.params.byteOrder nbits w) :: s.script := rfl
@[simp] theorem withFetchWord_outputs (s : State) (nbits w : Nat) :
    (s.withFetchWord nbits w).outputs = s.outputs := rfl
@[simp] theorem withFetchWord_draws (s : State) (nbits w : Nat) : (s.withFetchWord nbits w).draws = s.draws := rfl

end Sys2Proof.Machine.State
end

