-- ==== Sys2Proof/Laws/Ops.lean ====
section
/-! SUPPORT. One spec lemma per shared operation: everything it can do. -/

namespace Sys2Proof.Machine

/-! ### What settles -/

theorem encSettled_hold (s : State) (d : Nat) : (s.hold d).encSettled ↔ s.params.encTPd ≤ s.encHeld + d := by
  simp [State.encSettled]

theorem decSettled_hold (s : State) (d : Nat) : (s.hold d).decSettled ↔ s.params.decTPd ≤ s.decHeld + d := by
  simp [State.decSettled]

/-- Holding for the encode block's `T_PD` settles it, whatever was held before (R233). -/
theorem hold_encTPd_fp16Out (s : State) :
    (s.hold s.params.encTPd).fp16Out = fpEncode s.params.encNanMode s.fp64In := by
  simp

/-- Holding for the decode block's `T_PD` settles it (R233). -/
theorem hold_decTPd_fp64Out (s : State) :
    (s.hold s.params.decTPd).fp64Out = fpDecode s.params.decNanMode s.fp16In := by
  simp

theorem fp16OutSeen_of_settled {s : State} (h : s.encSettled) : s.fp16OutSeen = s.fp16Out := if_pos h

theorem fp16OutSeen_of_unsettled {s : State} (h : ¬s.encSettled) : s.fp16OutSeen = Config.encDraw s.draws := if_neg h

theorem fp64OutSeen_of_settled {s : State} (h : s.decSettled) : s.fp64OutSeen = s.fp64Out := if_pos h

theorem fp64OutSeen_of_unsettled {s : State} (h : ¬s.decSettled) : s.fp64OutSeen = Config.decDraw s.draws := if_neg h

/-! ### The two meanings, in closed form -/

/-- Everything an encode application does (R100, R237); the time it holds passes for the decode block too (R21). -/
theorem execFp64ToFp16_eq (a : Fp64) (s : State) :
    execFp64ToFp16 a s = .next
      { s with
        fp64In := a
        fp16Out := fpEncode s.params.encNanMode a
        encHeld := (if a = s.fp64In then s.encHeld else 0) + s.params.encTPd
        fp64Out := if s.params.decTPd ≤ s.decHeld + s.params.encTPd then fpDecode s.params.decNanMode s.fp16In
          else Config.decDraw (s.draws + 1 + 1)
        decHeld := s.decHeld + s.params.encTPd
        outputs := s.outputs ++ [.fp16 (fpEncode s.params.encNanMode a)]
        draws := s.draws + 1 + 1 + 1 + 1 } := by
  have h : ((s.driveFp64In a).hold s.params.encTPd).fp16OutSeen = fpEncode s.params.encNanMode a := by
    rw [fp16OutSeen_of_settled] <;> simp
  have h' := hold_encTPd_fp16Out (s.driveFp64In a)
  simp only [State.driveFp64In_params, State.driveFp64In_fp64In] at h'
  simp only [execFp64ToFp16, State.readFp16Out, h]
  rw [← h']
  rfl

/-- Everything a decode application does (R140, R237); the time it holds passes for the encode block too (R21). -/
theorem execFp16ToFp64_eq (h : Fp16) (s : State) :
    execFp16ToFp64 h s = .next
      { s with
        fp16In := h
        fp64Out := fpDecode s.params.decNanMode h
        decHeld := (if h = s.fp16In then s.decHeld else 0) + s.params.decTPd
        fp16Out := if s.params.encTPd ≤ s.encHeld + s.params.decTPd then fpEncode s.params.encNanMode s.fp64In
          else Config.encDraw (s.draws + 1)
        encHeld := s.encHeld + s.params.decTPd
        outputs := s.outputs ++ [.fp64 (fpDecode s.params.decNanMode h)]
        draws := s.draws + 1 + 1 + 1 + 1 } := by
  have hs : ((s.driveFp16In h).hold s.params.decTPd).fp64OutSeen = fpDecode s.params.decNanMode h := by
    rw [fp64OutSeen_of_settled] <;> simp
  have h' := hold_decTPd_fp64Out (s.driveFp16In h)
  simp only [State.driveFp16In_params, State.driveFp16In_fp16In] at h'
  simp only [execFp16ToFp64, State.readFp64Out, hs]
  rw [← h']
  rfl

/-- What both meanings share: an application always answers a next state, keeps the build-time parameters and the rest of the
script, and adds the one word read. -/
theorem exec_next (i : Instr) (s : State) : ∃ t x, exec i s = .next t ∧ t.params = s.params ∧ t.script = s.script ∧
    t.outputs = s.outputs ++ [x] := by
  cases i with
  | fp64ToFp16 a => exact ⟨_, _, execFp64ToFp16_eq a s, rfl, rfl, rfl⟩
  | fp16ToFp64 h => exact ⟨_, _, execFp16ToFp64_eq h s, rfl, rfl, rfl⟩

/-! ### What a new pattern leaves unsettled (R233) -/

theorem driveFp64In_encHeld_of_ne {s : State} {a : Fp64} (h : a ≠ s.fp64In) : (s.driveFp64In a).encHeld = 0 := by
  simp [h]

theorem driveFp16In_decHeld_of_ne {s : State} {h : Fp16} (hne : h ≠ s.fp16In) : (s.driveFp16In h).decHeld = 0 := by
  simp [hne]

/-! ### What a step can do -/

/-- Every step with no fault is one of the host's moves (R237), or the end of its script. -/
theorem step_cases (s : State) :
    (s.script = [] ∧ step s = .next s) ∨
    ∃ m rest, s.script = m :: rest ∧ step s = runMove m { s with script := rest } := by
  cases h : s.script with
  | nil => exact .inl ⟨rfl, by simp [step, runScript, h]⟩
  | cons m rest => exact .inr ⟨m, rest, rfl, by simp [step, runScript, h]⟩

/-- A step makes the script's first move. -/
theorem step_cons {s : State} {m : HostMove} {moves : List HostMove} (h : s.script = m :: moves) :
    step s = runMove m { s with script := moves } := by
  simp [step, runScript, h]

/-- A run goes on from where its first step leads. -/
theorem run_succ_of_step {s t : State} (h : step s = .next t) (n : Nat) :
    Sys2Proof.core.run (n + 1) s = Sys2Proof.core.run n t := by
  have h' : Sys2Proof.core.step s = .next t := h
  simp only [Host.Core.run, h']

/-- What a move does, said once. -/
theorem runMove_cases (m : HostMove) (s : State) :
    (m = .apply [] ∧ runMove m s = .next s) ∨
    (∃ bytes i rest, m = .apply bytes ∧ decode s.params.byteOrder bytes = .ok (i, rest) ∧
      runMove m s = exec i (s.resumeStream rest)) ∨
    (∃ bytes e, m = .apply bytes ∧ bytes ≠ [] ∧ decode s.params.byteOrder bytes = .error e ∧
      runMove m s = .refused (.undecodable e)) ∨
    (∃ a, m = .driveFp64In a ∧ runMove m s = .next (s.driveFp64In a)) ∨
    (∃ h, m = .driveFp16In h ∧ runMove m s = .next (s.driveFp16In h)) ∨
    (∃ d, m = .hold d ∧ runMove m s = .next (s.hold d)) ∨
    (m = .readFp16Out ∧ runMove m s = .next s.readFp16Out) ∨
    (m = .readFp64Out ∧ runMove m s = .next s.readFp64Out) := by
  cases m with
  | apply bytes =>
    cases bytes with
    | nil => exact .inl ⟨rfl, rfl⟩
    | cons b bs =>
      cases h : decode s.params.byteOrder (b :: bs) with
      | error e => exact .inr (.inr (.inl ⟨_, e, rfl, by simp, h, by simp [runMove, applyStream, h]⟩))
      | ok r => exact .inr (.inl ⟨_, r.1, r.2, rfl, h, by simp [runMove, applyStream, h]⟩)
  | driveFp64In a => simp [runMove]
  | driveFp16In h => simp [runMove]
  | hold d => simp [runMove]
  | readFp16Out => simp [runMove]
  | readFp64Out => simp [runMove]

end Sys2Proof.Machine
end

