-- ==== Sys2Proof/Laws/PerInstr.lean ====
section
/-! SUPPORT. Laws of each instruction as syntax, one lemma per constructor. -/

namespace Sys2Proof.Laws.Serialised

/-- The instruction is well formed, its serialised form is one selector byte and its operand's bytes, and that form is a whole
application in either BYTE_ORDER. -/
def Statement (i : Instr) : Prop :=
  i.wellFormed = true ∧ ∀ o : ByteOrder,
    (encode o i).length = 1 + (if i.op = 0 then 8 else 2) ∧ wholeApplications (encode o i) = true

theorem whole_op0 (sel : Byte) (h : sel.getLsbD 0 = false) :
    ∀ bs : List Byte, bs.length = 8 → wholeApplications (sel :: bs) = true := by
  rintro bs hl
  match bs, hl with
  | [_, _, _, _, _, _, _, _], _ => unfold wholeApplications; rw [h]; rfl

theorem whole_op1 (sel : Byte) (h : sel.getLsbD 0 = true) :
    ∀ bs : List Byte, bs.length = 2 → wholeApplications (sel :: bs) = true := by
  rintro bs hl
  match bs, hl with
  | [_, _], _ => unfold wholeApplications; rw [h]; rfl

theorem fp64ToFp16 (a : Fp64) : Statement (.fp64ToFp16 a) :=
  ⟨rfl, fun o => ⟨by simp [encode, Instr.op], whole_op0 _ (by simp [Instr.op]) _ (by simp)⟩⟩

theorem fp16ToFp64 (h : Fp16) : Statement (.fp16ToFp64 h) :=
  ⟨rfl, fun o => ⟨by simp [encode, Instr.op], whole_op1 _ (by simp [Instr.op]) _ (by simp)⟩⟩

end Sys2Proof.Laws.Serialised
end

