-- ==== Sys2Proof/Tests/Slice0.lean ====
section
/-! SUPPORT. Tests: expected results are the spec's (95_test_vectors.md, the row is named), one step or one call each; then for
every statement with hypotheses a witness that meets them. -/

namespace Sys2Proof.Tests

open Sys2Proof.Machine

/-- The next state, if there is one. -/
def nextOf (o : Host.Outcome State Fault Refusal) : Option State :=
  match o with
  | .next t => some t
  | .fault _ => none
  | .refused _ => none

/-- What the host has read after `o`. -/
def readAfter (o : Host.Outcome State Fault Refusal) : Option (List Output) := (nextOf o).map State.outputs

/-- Reset in a build with other NaN modes, the script given. -/
def stateWith (em : EncNanMode) (dm : DecNanMode) (script : List HostMove) : State :=
  { State.reset with params := { Params.default with encNanMode := em, decNanMode := dm }, script := script }

/-! ### Well-formedness: every application is well formed; a stream that ends inside one is not -/

theorem test_every_instr_wellFormed (i : Instr) : i.wellFormed = true := by cases i <;> rfl

theorem test_whole_refuses_short_encode : wholeApplications [0, 1, 2, 3, 4, 5, 6, 7] = false := by decide

theorem test_whole_refuses_short_decode : wholeApplications [1, 0] = false := by decide

theorem test_whole_refuses_broken_second : wholeApplications [1, 0, 0, 0] = false := by decide

theorem test_whole_accepts_two : wholeApplications [1, 0, 0, 0, 0, 0, 0, 0, 0, 0, 0, 0] = true := by decide

/-! ### Decoding, from the words of R67 and the layout of log 5 -/

/-- P1 step 1: op = 0, 0x400921FB54442D18, least significant byte first. -/
theorem test_decode_fp64ToFp16_little :
    decode .little [0b00000000, 0x18, 0x2D, 0x44, 0x54, 0xFB, 0x21, 0x09, 0x40, 0xAA] =
      .ok (.fp64ToFp16 0x400921FB54442D18, [0xAA]) := by decide

theorem test_decode_fp64ToFp16_big :
    decode .big [0b00000000, 0x40, 0x09, 0x21, 0xFB, 0x54, 0x44, 0x2D, 0x18] =
      .ok (.fp64ToFp16 0x400921FB54442D18, []) := by decide

/-- P1 step 2: op = 1, 0x4248. -/
theorem test_decode_fp16ToFp64_little : decode .little [0b00000001, 0x48, 0x42] = .ok (.fp16ToFp64 0x4248, []) := by decide

theorem test_decode_fp16ToFp64_big : decode .big [0b00000001, 0x42, 0x48] = .ok (.fp16ToFp64 0x4248, []) := by decide

theorem test_decode_short : decode .little [0, 1, 2, 3] = .error .shortFp64Operand := by decide

theorem test_encode_fp16ToFp64_big : encode .big (.fp16ToFp64 0x4248) = [1, 0x42, 0x48] := by decide

theorem test_table_rows : decodeTableWord 8 0 = some (.fp64ToFp16 0) ∧ decodeTableWord 8 1 = some (.fp16ToFp64 0) := by decide

theorem test_table_word_with_operand :
    decodeTableWord 24 0x424801 = some (.fp16ToFp64 0x4248) ∧
    decodeTableWord 72 0x400921FB54442D1800 = some (.fp64ToFp16 0x400921FB54442D18) := by decide

/-! ### The two operations -/

/-- V15 (tie at 65520), V24, V36, V38, V39, V44 through the function; V53 in its three modes. -/
theorem test_encode_boundaries :
    [0x40EFFE0000000000, 0x3FF0060000000000, 0x3E78000000000000, 0x3E60000000000000, 0x3E60000000000001,
      0x800FFFFFFFFFFFFF, 0x3F0FFC0000000000, 0x40EFFDFFFFFFFFFF].map (fpEncode .signCanonical) =
      [0x7C00, 0x3C02, 0x0002, 0x0000, 0x0001, 0x8000, 0x0400, 0x7BFF] ∧
    [EncNanMode.signCanonical, .positiveCanonical, .payloadQuiet].map (fun m => fpEncode m 0xFFF5540000000000) =
      [0xFE00, 0x7E00, 0xFF55] := by decide +kernel

/-- V5: one step from reset reads −2.5's pattern. -/
theorem test_step_fp64ToFp16 : readAfter (step (State.reset.withFetchWord 72 0xC00400000000000000)) = some [.fp16 0xC100] := by
  decide

/-- W6, W7, W9, W10, W18, W21 through the function; W25 in its three modes. -/
theorem test_decode_boundaries :
    [0x0003, 0x0155, 0x03FF, 0x0400, 0x7BFF, 0xFC00].map (fpDecode .payloadQuiet) =
      [0x3E88000000000000, 0x3EF5500000000000, 0x3F0FF80000000000, 0x3F10000000000000, 0x40EFFC0000000000,
        0xFFF0000000000000] ∧
    [DecNanMode.payloadQuiet, .signCanonical, .positiveCanonical].map (fun m => fpDecode m 0x7D55) =
      [0x7FFD540000000000, 0x7FF8000000000000, 0x7FF8000000000000] := by decide +kernel

/-- W16: one step from reset reads −2.5's binary64 pattern. -/
theorem test_step_fp16ToFp64 : readAfter (step (State.reset.withFetchWord 24 0xC10001)) = some [.fp64 0xC004000000000000] := by
  decide

/-- R21: one hold settles both blocks (1.5 driven on one, −2.5 on the other: V4, W16). -/
theorem test_hold_settles_both_blocks :
    let t := ((State.reset.driveFp64In 0x3FF8000000000000).driveFp16In 0xC100).hold 1
    t.fp16OutSeen = 0x3E00 ∧ t.fp64OutSeen = 0xC004000000000000 := by decide

/-! ### The wrappers and the text (X2, X7, X9, X14, X20, X31; B5; R69) -/

theorem test_toHex : toHex 0x000F = ['0', 'x', '0', '0', '0', 'F'] := by decide

theorem test_fromHex :
    fromHex ['0', 'X', '3', 'c', '0', '0'] = .ok 0x3C00 ∧ fromHex ['0', 'x', 'F'] = .ok 0x000F ∧
    fromHex ['0', 'x', '0', 'x', '1'] = .error ⟨['0', 'x', '0', 'x', '1']⟩ := by decide

theorem test_fromHexBatch :
    fromHexBatch [['0', 'x', '1'], ['z', 'z'], ['0', 'x', '1', '2', '3', '4', '5']] = .error ⟨1, ⟨['z', 'z']⟩⟩ := by decide

theorem test_print_and_parse :
    printInstr (.fp16ToFp64 0x4248) =
      ['f', 'p', '1', '6', '_', 't', 'o', '_', 'f', 'p', '6', '4', ' ', '0', 'x', '4', '2', '4', '8'] ∧
    parseInstr ['f', 'p', '1', '6', '_', 't', 'o', '_', 'f', 'p', '6', '4', ' ', '0', 'x', '3', 'c', '0', '0'] = none := by
  decide

/-! ### Values (R70, R71) -/

theorem test_values :
    value16 0x7BFF = .finite false 65504 ∧ value16 0xC100 = .finite true (5 / 2) ∧
    value64 0x3E70000000000000 = .finite false (1 / 2 ^ 24) ∧ value64 0x40EFFE0000000000 = .finite false 65520 := by
  decide +kernel

/-- The datapaths on a carry (V32) and a subnormal (W7). -/
theorem test_datapaths :
    narrowDatapath .signCanonical 0x3F0FFC0000000000 = 0x0400 ∧
    widenDatapath .payloadQuiet 0x0155 = 0x3EF5500000000000 := by decide +kernel

/-! ### Witnesses: the hypotheses of each statement are met -/

theorem witness_DecodedBytesAreTheEncoding :
    decode .big (0xFF :: [0x42, 0x48]) = .ok (.fp16ToFp64 0x4248, []) := by decide

theorem witness_SelectorBitNamesTheOperation :
    8 ≤ ([1, 2, 3, 4, 5, 6, 7, 8] : List Byte).length ∧ (0xFE : Byte).getLsbD 0 = false ∧ (0x01 : Byte).getLsbD 0 = true := by
  decide

theorem witness_TextSpellsOneApplication :
    parseInstr ['f', 'p', '1', '6', '_', 't', 'o', '_', 'f', 'p', '6', '4', ' ', '0', 'x', '4', '2', '4', '8'] =
      some (.fp16ToFp64 0x4248) := by decide

theorem witness_Fp16PatternIsItsFields : exponent16 0x0400 = 1 ∧ exponent16 0xFBFF = 30 := by decide

theorem witness_EncodeIsTotalAndReadsOnlyItsInput :
    (stateWith .payloadQuiet .payloadQuiet []).params.encNanMode = .payloadQuiet := rfl

theorem witness_EncodeOfZeroIsSignedZero :
    (0x8000000000000000#64 = 0x0000000000000000#64 ∨ 0x8000000000000000#64 = 0x8000000000000000#64) := by decide

theorem witness_EncodeOfInfinityIsInfinity :
    exponent64 0xFFF0000000000000 = 2047 ∧ fraction64 0xFFF0000000000000 = 0 := by decide

theorem witness_EncodeOfNaNFollowsTheMode :
    exponent64 0x7FF0000000000001 = 2047 ∧ fraction64 0x7FF0000000000001 ≠ 0 := by decide

theorem witness_EncodeOfLargeExponentIsInfinity :
    exponent64 0x40F0000000000000 = 1039 ∧ exponent64 0x7FEFFFFFFFFFFFFF = 2046 := by decide

theorem witness_EncodeRoundsInTheNormalRange :
    exponent64 0x3F10000000000000 = 1009 ∧ exponent64 0x40EFFE0000000000 = 1038 ∧
    rneShift (2 ^ 52 + fraction64 0x3F10000000000000) 42 < 2048 ∧
    rneShift (2 ^ 52 + fraction64 0x40EFFE0000000000) 42 = 2048 := by decide +kernel

theorem witness_EncodeRoundsInTheSubnormalRange :
    exponent64 0x3F0FFFFFFFFFFFFF = 1008 ∧
    rneShift (2 ^ 52 + fraction64 0x3F0FFFFFFFFFFFFF) (1051 - exponent64 0x3F0FFFFFFFFFFFFF) = 1024 ∧
    ¬(exponent64 0x0000000000000001 = 0 ∧ fraction64 0x0000000000000001 = 0) := by decide +kernel

theorem witness_EncodeKeepsTheSignBit :
    (0xBE60000000000000#64).getLsbD 63 = true ∧ class64 0xBE60000000000000 ≠ .nan ∧
    fpEncode .signCanonical 0xBE60000000000000 &&& 0x7FFF#16 = 0#16 := by decide +kernel

/-- A tie at the least `k`: 3 / 2 lies as far from 1 as from 2. -/
theorem witness_RneShiftIsNearestTiesToEven :
    rneShift 3 1 = 2 ∧ (1 : ℤ) ≠ 2 ∧ |(3 : ℤ) - 2 * 2 ^ 1| = |(3 : ℤ) - 1 * 2 ^ 1| := by decide

theorem witness_GuardAndStickyRoundTheSame : 2 ≤ 2 ∧ guardStickyShift 6 2 = 2 := by decide

theorem witness_EncodeDenotesTheRoundedValue : class64 0x40EFFE0000000000 ≠ .nan := by decide

theorem witness_OverflowStartsAt65520 :
    value64 0x40EFFE0000000000 = .finite false 65520 ∧ value64 0x40EFFC0000000000 = .finite false 65504 ∧
    (65504 : ℚ) < 65520 := by decide +kernel

theorem witness_UnderflowEndsAtHalfTheSmallestSubnormal :
    value64 0x3E60000000000000 = .finite false (2 ^ (-25 : ℤ)) ∧
    value64 0x3E78000000000000 = .finite false (3 / 2 * 2 ^ (-24 : ℤ)) ∧
    value64 0x3E70000000000000 = .finite false (2 ^ (-24 : ℤ)) ∧
    (2 : ℚ) ^ (-25 : ℤ) < 2 ^ (-24 : ℤ) ∧ (2 : ℚ) ^ (-24 : ℤ) < 3 / 2 * 2 ^ (-24 : ℤ) := by decide +kernel

theorem witness_Binary64SubnormalsGiveSignedZero : class64 0x800FFFFFFFFFFFFF = .subnormal := by decide

theorem witness_EncodeCommutesWithNegation :
    class64 0x7FF8000000000000 = .nan ∧ EncNanMode.payloadQuiet ≠ .positiveCanonical := by decide

theorem witness_EncodeIsMonotone :
    (value64 0xFFF0000000000000).le (value64 0x8000000000000000) = true ∧
    (value64 0x8000000000000000).le (value64 0x0000000000000000) = true := by decide +kernel

theorem witness_NaNComesOutExactlyWhenNaNGoesIn :
    class64 0x7FF0000000000001 = .nan ∧ class16 0x7C01 = .nan := by decide

theorem witness_DecodeIsTotalAndLossFree :
    (stateWith .payloadQuiet .signCanonical []).params.decNanMode = .signCanonical ∧ class16 0x8000 ≠ .nan ∧
    fpDecode .payloadQuiet 0x8000 = fpDecode .payloadQuiet 0x8000 := by decide

theorem witness_DecodeOfZeroIsSignedZero : exponent16 0x8000 = 0 ∧ mantissa16 0x8000 = 0 := by decide

theorem witness_DecodeNormalisesSubnormals :
    exponent16 0x0001 = 0 ∧ mantissa16 0x0001 ≠ 0 ∧ exponent16 0x83FF = 0 ∧ mantissa16 0x83FF ≠ 0 := by decide

theorem witness_DecodeRebiasesNormals : exponent16 0x0400 = 1 ∧ exponent16 0xFBFF = 30 := by decide

theorem witness_DecodeOfInfinityIsInfinity : exponent16 0xFC00 = 31 ∧ mantissa16 0xFC00 = 0 := by decide

theorem witness_DecodeOfNaNFollowsTheMode : exponent16 0x7C01 = 31 ∧ mantissa16 0x7C01 ≠ 0 := by decide

theorem witness_DecodeIsExact : class16 0x03FF ≠ .nan := by decide

theorem witness_EncodeOfDecodeIsIdentity : class16 0xFC00 ≠ .nan := by decide

theorem witness_DecodeOfEncodeIsTheRoundedInput :
    class64 0xC004000000000000 ≠ .nan ∧ value16 0xC100 = value64 0xC004000000000000 := by decide +kernel

theorem witness_NaNRoundTrips : class16 0xFFFF = .nan ∧ class64 0xFFF4000000000000 = .nan := by decide

theorem witness_StepRunsTheDecodedApplication :
    (stateWith .signCanonical .payloadQuiet [.apply [1, 0x48, 0x42, 1, 0, 0], .readFp16Out]).script =
      .apply [1, 0x48, 0x42, 1, 0, 0] :: [.readFp16Out] ∧
    decode .little [1, 0x48, 0x42, 1, 0, 0] = .ok (.fp16ToFp64 0x4248, [1, 0, 0]) := by decide

theorem witness_StepRefusesOnlyBrokenStreams :
    decode (stateWith .signCanonical .payloadQuiet [.apply [1]]).params.byteOrder [1] = .error .shortFp16Operand := by decide

theorem witness_WholeScriptsRunSafely :
    (stateWith .positiveCanonical .payloadQuiet [.driveFp64In 1, .apply [1, 0, 0], .apply []]).wholeScript = true := by decide

/-- A state in which both outputs are settled agrees with its ports, and steps on. -/
theorem witness_StepKeepsPortsAgree :
    let s : State := { State.reset with encHeld := 1, decHeld := 1, script := [.driveFp16In 0x3C00] }
    s.encSettled ∧ s.decSettled ∧ s.fp16Out = fpEncode s.params.encNanMode s.fp64In ∧
    s.fp64Out = fpDecode s.params.decNanMode s.fp16In ∧ (nextOf (step s)).isSome = true := by decide

theorem witness_StepKeepsBuildParameters :
    (nextOf (step (stateWith .payloadQuiet .signCanonical [.hold 5]))).isSome = true := by decide

theorem witness_StepOnlyAppendsOutputs :
    (nextOf (step (stateWith .payloadQuiet .signCanonical [.readFp64Out]))).isSome = true := by decide

theorem witness_HeldInputReadsAsItsConversion :
    let s := stateWith .signCanonical .payloadQuiet [.driveFp64In 7, .hold 1, .readFp16Out]
    let u := stateWith .signCanonical .payloadQuiet [.driveFp16In 7, .hold 1, .readFp64Out]
    s.params.encTPd ≤ 1 ∧ u.params.decTPd ≤ 1 ∧ s.params.encTPd ≤ s.params.decTPd ∧ u.params.decTPd ≤ u.params.encTPd ∧
    (stateWith .signCanonical .payloadQuiet [.driveFp64In 7, .apply [1, 0x48, 0x42], .readFp16Out]).script =
      .driveFp64In 7 :: .apply (encode s.params.byteOrder (.fp16ToFp64 0x4248)) :: .readFp16Out :: [] ∧
    (stateWith .signCanonical .payloadQuiet [.driveFp16In 7, .apply [0, 0, 0, 0, 0, 0, 0, 0xF0, 0x3F], .readFp64Out]).script =
      .driveFp16In 7 :: .apply (encode u.params.byteOrder (.fp64ToFp16 0x3FF0000000000000)) :: .readFp64Out :: [] := by
  decide

/-- Settled ports in agreement, for the clauses of the two applications' frames that ask for them. -/
theorem witness_ApplicationFrames :
    let s : State := { State.reset with encHeld := 1, decHeld := 1 }
    s.encSettled ∧ s.decSettled ∧ s.fp16Out = fpEncode s.params.encNanMode s.fp64In ∧
    s.fp64Out = fpDecode s.params.decNanMode s.fp16In := by decide

theorem witness_EarlyReadIsADraw :
    (stateWith .signCanonical .payloadQuiet [.readFp16Out]).encHeld <
      (stateWith .signCanonical .payloadQuiet [.readFp16Out]).params.encTPd ∧
    (stateWith .signCanonical .payloadQuiet [.readFp64Out]).decHeld <
      (stateWith .signCanonical .payloadQuiet [.readFp64Out]).params.decTPd := by decide

theorem witness_StreamOfApplicationsIsTheBatch :
    ([0x3C00, 0x8000] : List Fp16) ≠ [] ∧
    (stateWith .signCanonical .payloadQuiet [.apply [1, 0x00, 0x3C, 1, 0x00, 0x80]]).script =
      .apply (([0x3C00, 0x8000] : List Fp16).flatMap fun h =>
        encode (stateWith .signCanonical .payloadQuiet []).params.byteOrder (.fp16ToFp64 h)) :: [] ∧
    ([0x3FF0000000000000] : List Fp64) ≠ [] ∧
    (stateWith .signCanonical .payloadQuiet [.apply [0, 0, 0, 0, 0, 0, 0, 0xF0, 0x3F]]).script =
      .apply (([0x3FF0000000000000] : List Fp64).flatMap fun a =>
        encode (stateWith .signCanonical .payloadQuiet []).params.byteOrder (.fp64ToFp16 a)) :: [] := by decide

theorem witness_HostPredicatesMeanTheirConditions : class64 0x40EFFE0000000000 ≠ .nan := by decide

theorem witness_HexRoundTrip : fromHex ['3', 'c', '0'] = .ok 0x03C0 := by decide

/-- Clause by clause: a new pattern with the least `T_PD`; held for 0, one less than `T_PD`; the pattern already there, with
the block settled exactly. -/
theorem witness_NewPatternRestartsTheSteadyTime :
    let s := stateWith .signCanonical .payloadQuiet [.driveFp64In 7, .readFp16Out]
    let u := stateWith .signCanonical .payloadQuiet [.driveFp16In 7, .readFp64Out]
    (7 ≠ s.fp64In ∧ 0 < s.params.encTPd) ∧ (7 ≠ u.fp16In ∧ 0 < u.params.decTPd) ∧
    0 = ({ s with encHeld := 1 } : State).fp64In ∧ ({ s with encHeld := 1 } : State).encSettled ∧
    0 = ({ u with decHeld := 1 } : State).fp16In ∧ ({ u with decHeld := 1 } : State).decSettled := by decide

/-- The settled states of the two read clauses, and, for the hold, ports in agreement; the others ask only for the move at the
script's head. -/
theorem witness_DriveHoldAndReadFrames :
    let s : State := { stateWith .signCanonical .payloadQuiet [.readFp16Out] with encHeld := 1 }
    let u : State := { stateWith .signCanonical .payloadQuiet [.readFp64Out] with decHeld := 1 }
    let v : State := { stateWith .signCanonical .payloadQuiet [.hold 0] with encHeld := 1, decHeld := 1 }
    s.encSettled ∧ s.script = .readFp16Out :: [] ∧ u.decSettled ∧ u.script = .readFp64Out :: [] ∧
    v.encSettled ∧ v.decSettled ∧ v.script = .hold 0 :: [] ∧
    v.fp16Out = fpEncode v.params.encNanMode v.fp64In ∧ v.fp64Out = fpDecode v.params.decNanMode v.fp16In ∧
    (stateWith .signCanonical .payloadQuiet [.driveFp64In 7]).script = .driveFp64In 7 :: [] ∧
    (stateWith .signCanonical .payloadQuiet [.driveFp16In 7]).script = .driveFp16In 7 :: [] := by decide

/-- The script of the clause that holds one less than `T_PD`. -/
theorem witness_NewPatternRestartsTheSteadyTime_held :
    (stateWith .signCanonical .payloadQuiet [.driveFp16In 7, .hold 0, .readFp64Out]).script =
      .driveFp16In 7 :: .hold 0 :: .readFp64Out :: [] ∧
    0 < (stateWith .signCanonical .payloadQuiet []).params.decTPd ∧
    (stateWith .signCanonical .payloadQuiet [.driveFp64In 7, .hold 0, .readFp16Out]).script =
      .driveFp64In 7 :: .hold 0 :: .readFp16Out :: [] ∧
    0 < (stateWith .signCanonical .payloadQuiet []).params.encTPd := by decide

end Sys2Proof.Tests
end

section
/-! PROOF. The layout of a binary16 pattern (30_encoding.md R60): the arithmetic fields as bit slices, the sign as bit 15, and the
value of a normal pattern. -/

namespace Sys2Proof.Machine

/-! ### The fields as bit slices -/

theorem sign16_eq_extractLsb' (h : Fp16) : sign16 h = (h.extractLsb' 15 1).toNat := by
  have slice_fits : h.toNat >>> 15 < 2 ^ 1 := Nat.lt_succ_of_le (sign16_le_one h)
  rw [BitVec.extractLsb'_toNat, Nat.mod_eq_of_lt slice_fits, sign16]

theorem exponent16_eq_extractLsb' (h : Fp16) : exponent16 h = (h.extractLsb' 10 5).toNat := by
  rw [BitVec.extractLsb'_toNat, exponent16]

theorem mantissa16_eq_extractLsb' (h : Fp16) : mantissa16 h = (h.extractLsb' 0 10).toNat := by
  rw [BitVec.extractLsb'_toNat, Nat.shiftRight_zero, mantissa16]

/-- The sign field is all that is left above bit 14, so it is 1 exactly when bit 15 is set. -/
theorem decide_sign16_eq_one (h : Fp16) : decide (sign16 h = 1) = h.getLsbD 15 := by
  have sign_mod : sign16 h % 2 = sign16 h := Nat.mod_eq_of_lt (Nat.lt_succ_of_le (sign16_le_one h))
  rw [BitVec.getLsbD, Nat.testBit_eq_decide_div_mod_eq, ← Nat.shiftRight_eq_div_pow, ← sign16, sign_mod]

/-! ### Packing and value -/

/-- The source's packing, `h = (s << 15) | (e << 10) | m` (R60): the fields do not overlap, so the pattern is their sum. -/
theorem toNat_eq_or_fields16 (h : Fp16) :
    h.toNat = (sign16 h <<< 15) ||| (exponent16 h <<< 10) ||| mantissa16 h := by
  have low_or : (exponent16 h <<< 10) ||| mantissa16 h = exponent16 h * 2 ^ 10 + mantissa16 h :=
    shiftLeft_or_eq_add (mantissa16_lt h)
  have low_lt : exponent16 h * 2 ^ 10 + mantissa16 h < 2 ^ 15 := by
    have := exponent16_lt h
    have := mantissa16_lt h
    omega
  rw [Nat.or_assoc, low_or, shiftLeft_or_eq_add low_lt, toNat_eq_fields16 h, Nat.add_assoc]

/-- The normal row of R61's table, the sign read off bit 15. -/
theorem value16_of_normal {h : Fp16} (lo : 1 ≤ exponent16 h) (hi : exponent16 h ≤ 30) :
    value16 h = .finite (h.getLsbD 15) ((1 + (mantissa16 h : ℚ) / 1024) * 2 ^ ((exponent16 h : ℤ) - 15)) := by
  have exponent_ne_zero : exponent16 h ≠ 0 := Nat.one_le_iff_ne_zero.mp lo
  simp only [value16, if_neg exponent_ne_zero, if_pos hi, decide_sign16_eq_one]

/-- Settles O7: the fields are slices that do not overlap, and a normal pattern's value has the bias 15. -/
theorem fp16PatternIsItsFields : Obligations.Fp16PatternIsItsFields := fun h =>
  ⟨toNat_eq_or_fields16 h, sign16_eq_extractLsb' h, exponent16_eq_extractLsb' h, mantissa16_eq_extractLsb' h,
    value16_of_normal⟩

end Sys2Proof.Machine
end

section
/-! PROOF. The encode application: the word it shows, by the class of its input (40_fp64_to_fp16.md section 2), and the rounding
it does (section 3). A result word is a sign over 15 magnitude bits, so each result is found from its magnitude. -/

namespace Sys2Proof.Machine

/-! ### The sign and the value of a binary64 pattern -/

/-- The sign field is all that is left above bit 62, so it is 1 exactly when bit 63 is set. -/
theorem decide_sign64_eq_one (a : Fp64) : decide (sign64 a = 1) = a.getLsbD 63 := by
  have sign_mod : sign64 a % 2 = sign64 a := Nat.mod_eq_of_lt (Nat.lt_succ_of_le (sign64_le_one a))
  rw [BitVec.getLsbD, Nat.testBit_eq_decide_div_mod_eq, ← Nat.shiftRight_eq_div_pow, ← sign64, sign_mod]

theorem sign64_eq_ite (a : Fp64) : sign64 a = if a.getLsbD 63 then 1 else 0 := by
  rw [← decide_sign64_eq_one]
  obtain zero | one := Nat.le_one_iff_eq_zero_or_eq_one.mp (sign64_le_one a)
  · rw [zero]
    rfl
  · rw [one]
    rfl

theorem significand64_of_ne_zero {E : Nat} (F : Nat) (h : E ≠ 0) : significand64 E F = 2 ^ 52 + F := if_neg h

theorem unbiased64_of_ne_zero {E : Nat} (h : E ≠ 0) : unbiased64 E = (E : ℤ) - 1023 := if_neg h

/-- A finite pattern denotes `M × 2^(ue − 52)` (R106), zero and subnormals included. -/
theorem value64_of_finite {a : Fp64} (h : exponent64 a ≤ 2046) :
    value64 a = .finite (a.getLsbD 63)
      ((significand64 (exponent64 a) (fraction64 a) : ℚ) * 2 ^ (unbiased64 (exponent64 a) - 52)) := by
  by_cases hE : exponent64 a = 0
  · simp only [value64, if_pos hE, decide_sign64_eq_one, significand64, unbiased64]
    norm_num
  · have scale : (1 + (fraction64 a : ℚ) / 2 ^ 52) * 2 ^ ((exponent64 a : ℤ) - 1023) =
        ((2 ^ 52 + fraction64 a : ℕ) : ℚ) * 2 ^ ((exponent64 a : ℤ) - 1023 - 52) := by
      rw [zpow_sub₀ two_ne_zero ((exponent64 a : ℤ) - 1023) 52]
      push_cast
      ring
    simp only [value64, if_neg hE, if_pos h, decide_sign64_eq_one, significand64_of_ne_zero _ hE,
      unbiased64_of_ne_zero hE, scale]

/-- A magnitude counted in quanta of `2^e`: the exponent `e − k` gives up `k` to the divisor. -/
theorem mul_two_zpow_eq_quanta (M : ℚ) (k : ℕ) (e : ℤ) : M * 2 ^ (e - k) = M / 2 ^ k * 2 ^ e := by
  rw [zpow_sub₀ two_ne_zero, zpow_natCast]
  ring

/-! ### Reading the fields of a result word off its number -/

section fields
variable {h : Fp16} {s e m : Nat}

theorem exponent16_of_toNat (hw : h.toNat = 2 ^ 15 * s + (e * 2 ^ 10 + m)) (he : e < 32) (hm : m < 1024) :
    exponent16 h = e := by
  have := toNat_eq_fields16 h
  have := exponent16_lt h
  have := mantissa16_lt h
  omega

theorem mantissa16_of_toNat (hw : h.toNat = 2 ^ 15 * s + (e * 2 ^ 10 + m)) (hm : m < 1024) : mantissa16 h = m := by
  have := toNat_eq_fields16 h
  have := mantissa16_lt h
  omega

theorem sign16_of_toNat {mag : Nat} (hw : h.toNat = 2 ^ 15 * s + mag) (hmag : mag < 2 ^ 15) : sign16 h = s := by
  rw [sign16, Nat.shiftRight_eq_div_pow, hw]
  omega

end fields

/-- The magnitudes from the least normal's to infinity's name a normal pattern or an infinity (R61). -/
theorem class16_normal_or_infinity {h : Fp16} {s mag : Nat} (hw : h.toNat = 2 ^ 15 * s + mag)
    (lo : 2 ^ 10 ≤ mag) (hi : mag ≤ 0x7C00) : class16 h = .normal ∨ class16 h = .infinity := by
  have fields := toNat_eq_fields16 h
  have := exponent16_lt h
  have := mantissa16_lt h
  have exponent_ne_zero : exponent16 h ≠ 0 := by omega
  by_cases hE : exponent16 h ≤ 30
  · exact .inl (by simp [class16, exponent_ne_zero, hE])
  · have mantissa_zero : mantissa16 h = 0 := by omega
    exact .inr (by simp [class16, exponent_ne_zero, hE, mantissa_zero])

/-- A word with bit 15 set and its magnitude bits 0 is the negative zero. -/
theorem eq_negZero_of_bit15 {h : Fp16} (bit : h.getLsbD 15 = true) (low : h &&& 0x7FFF#16 = 0#16) : h = 0x8000#16 := by
  have low_zero : h.toNat % 2 ^ 15 = 0 := by
    rw [← Nat.and_two_pow_sub_one_eq_mod]
    exact congrArg BitVec.toNat low
  have sign_one : sign16 h = 1 := of_decide_eq_true (by rw [decide_sign16_eq_one, bit])
  apply BitVec.eq_of_toNat_eq
  rw [sign16, Nat.shiftRight_eq_div_pow] at sign_one
  change h.toNat = 0x8000
  omega

/-! ### The rounding shift (R107) -/

/-- The rounding error, `M − n·2^k`, is what was cut off, or what that lacks to a whole quantum. -/
theorem rneShift_cases (M k : Nat) :
    (rneShift M k = M / 2 ^ k ∧ (M : ℤ) - rneShift M k * 2 ^ k = (M % 2 ^ k : ℕ) ∧
      M % 2 ^ k ≤ 2 ^ (k - 1) ∧ (M % 2 ^ k = 2 ^ (k - 1) → rneShift M k % 2 = 0)) ∨
    (rneShift M k = M / 2 ^ k + 1 ∧ (M : ℤ) - rneShift M k * 2 ^ k = (M % 2 ^ k : ℕ) - 2 ^ k ∧
      2 ^ (k - 1) ≤ M % 2 ^ k ∧ (M % 2 ^ k = 2 ^ (k - 1) → rneShift M k % 2 = 0)) := by
  have split_M : (M : ℤ) = 2 ^ k * (M / 2 ^ k : ℕ) + (M % 2 ^ k : ℕ) := mod_cast (Nat.div_add_mod M (2 ^ k)).symm
  rw [rneShift_eq]
  split
  case isTrue up =>
    refine .inr ⟨rfl, ?_, by omega, by omega⟩
    push_cast at split_M ⊢
    linarith
  case isFalse down =>
    refine .inl ⟨rfl, ?_, by omega, by omega⟩
    push_cast at split_M ⊢
    linarith

/-- `n` misses `M / 2^k` by at most half a quantum, and by half a quantum only when it is even. -/
theorem rneShift_error (M : Nat) {k : Nat} (hk : 1 ≤ k) :
    2 * |(M : ℤ) - rneShift M k * 2 ^ k| ≤ 2 ^ k ∧
      (2 * |(M : ℤ) - rneShift M k * 2 ^ k| = 2 ^ k → rneShift M k % 2 = 0) := by
  have two_halves : 2 ^ k = 2 * 2 ^ (k - 1) := by rw [← pow_succ', Nat.sub_add_cancel hk]
  have remainder_lt : M % 2 ^ k < 2 ^ k := Nat.mod_lt _ (Nat.two_pow_pos k)
  have width : (2 : ℤ) ^ k = (2 ^ k : ℕ) := by push_cast; rfl
  obtain ⟨-, error, half, tie⟩ | ⟨-, error, half, tie⟩ := rneShift_cases M k
  · rw [error, width, abs_of_nonneg (by omega)]
    exact ⟨by omega, fun h => tie (by omega)⟩
  · rw [error, width, abs_of_nonpos (by omega)]
    exact ⟨by omega, fun h => tie (by omega)⟩

/-- Another multiple of `w` lies at least `w` from `n·w`, so the two distances from `M` come to `w` or more. -/
theorem le_add_distances {M n j w : ℤ} (hw : 0 ≤ w) (hj : j ≠ n) : w ≤ |M - n * w| + |M - j * w| := by
  have apart : 1 ≤ |n - j| := Int.one_le_abs (sub_ne_zero.mpr hj.symm)
  calc w ≤ |n - j| * w := le_mul_of_one_le_left hw apart
    _ = |(M - j * w) - (M - n * w)| := by rw [← abs_of_nonneg hw, ← abs_mul, abs_of_nonneg hw]; ring_nf
    _ ≤ |M - j * w| + |M - n * w| := abs_sub _ _
    _ = |M - n * w| + |M - j * w| := add_comm _ _

/-- Settles O18: the error is at most half a quantum, so every other multiple is as far or farther, and as far only on a tie,
where `n` is even. -/
theorem rneShiftIsNearestTiesToEven : Obligations.RneShiftIsNearestTiesToEven := by
  intro M k hk n
  obtain ⟨half, tie⟩ := rneShift_error M hk
  have apart (j : ℤ) (hj : j ≠ n) : 2 ^ k ≤ |(M : ℤ) - n * 2 ^ k| + |(M : ℤ) - j * 2 ^ k| :=
    le_add_distances (by positivity) hj
  refine ⟨?floorOrNext, fun j => ?nearest, fun j hj same => ?even⟩
  case floorOrNext =>
    have := rneShift_ge M k
    have := rneShift_le M k
    omega
  case nearest =>
    by_cases hj : j = n
    · rw [hj]
    · have := apart j hj
      linarith
  case even =>
    have := apart j hj
    exact tie (by linarith)

/-! ### The magnitude bits by range (R108 to R110) -/

/-- The distance `28 − ue` by which the subnormal range shifts `M` (R110). -/
def subnormalShift (E : Nat) : Nat := if E = 0 then 1050 else 1051 - E

theorem subnormalShift_cast {E : Nat} (h : E ≤ 1008) : (subnormalShift E : ℤ) = 28 - unbiased64 E := by
  simp only [subnormalShift, unbiased64]
  split <;> omega

theorem subnormalShift_ge {E : Nat} (h : E ≤ 1008) : 43 ≤ subnormalShift E := by
  simp only [subnormalShift]
  split <;> omega

/-- Fewer than 1024 quanta are cut to at most 1023, and rounded up to at most 1024. -/
theorem rneShift_le_1024 {M k : Nat} (hM : M < 2 ^ 10 * 2 ^ k) : rneShift M k ≤ 1024 := by
  have quotient_lt : M / 2 ^ k < 2 ^ 10 := Nat.div_lt_of_lt_mul (by rwa [Nat.mul_comm])
  have := rneShift_le M k
  omega

theorem encMagnitude_of_large {E : Nat} (M : Nat) (lo : 1039 ≤ E) : encMagnitude M (unbiased64 E) = 0x7C00 := by
  rw [unbiased64_of_ne_zero (by omega), encMagnitude, if_pos (by omega)]

theorem encMagnitude_of_normal {E : Nat} (F : Nat) (lo : 1009 ≤ E) (hi : E ≤ 1038) :
    encMagnitude (significand64 E F) (unbiased64 E) = (E - 1008) * 2 ^ 10 + (rneShift (2 ^ 52 + F) 42 - 1024) := by
  have exponent_field : ((E : ℤ) - 1023 + 15).toNat = E - 1008 := by omega
  rw [unbiased64_of_ne_zero (by omega), significand64_of_ne_zero F (by omega), encMagnitude, if_neg (by omega),
    if_pos (by omega), exponent_field, Nat.shiftLeft_eq]

theorem encMagnitude_of_subnormal {E : Nat} (M : Nat) (hi : E ≤ 1008) :
    encMagnitude M (unbiased64 E) = rneShift M (subnormalShift E) := by
  have shift := subnormalShift_cast hi
  have := subnormalShift_ge hi
  rw [encMagnitude, if_neg (by omega), if_neg (by omega), ← shift, Int.toNat_natCast]

/-- A significand is below 1024 quanta of the subnormal range, and so below the least normal. -/
theorem significand64_lt_quanta {E F : Nat} (hF : F < 2 ^ 52) (hi : E ≤ 1008) :
    significand64 E F < 2 ^ 10 * 2 ^ subnormalShift E :=
  calc significand64 E F < 2 ^ 10 * 2 ^ 43 := significand64_lt hF
    _ ≤ 2 ^ 10 * 2 ^ subnormalShift E := by gcongr; exacts [one_le_two, subnormalShift_ge hi]

/-- The magnitude bits of a finite input reach infinity's at most: no carry leaves bit 14 (R111). -/
theorem encMagnitude_le {E F : Nat} (hF : F < 2 ^ 52) :
    encMagnitude (significand64 E F) (unbiased64 E) ≤ 0x7C00 := by
  rcases (by omega : E ≤ 1008 ∨ (1009 ≤ E ∧ E ≤ 1038) ∨ 1039 ≤ E) with sub | ⟨lo, hi⟩ | large
  · rw [encMagnitude_of_subnormal _ sub]
    have := rneShift_le_1024 (significand64_lt_quanta hF sub)
    omega
  · rw [encMagnitude_of_normal F lo hi]
    have := rneShift_42_bounds (M := 2 ^ 52 + F) (by omega) (by omega)
    omega
  · rw [encMagnitude_of_large _ large]

/-! ### The word by class -/

theorem class64_eq_nan_iff (a : Fp64) : class64 a = .nan ↔ exponent64 a = 2047 ∧ fraction64 a ≠ 0 := by
  simp only [class64]
  split_ifs <;> simp_all

theorem class64_of_normal {a : Fp64} (lo : 1 ≤ exponent64 a) (hi : exponent64 a ≤ 2046) : class64 a = .normal := by
  have : exponent64 a ≠ 2047 := by omega
  have : exponent64 a ≠ 0 := by omega
  simp [class64, *]

section byClass
variable (mode : EncNanMode) {a : Fp64}

theorem fpEncodeNat_of_nan (h : class64 a = .nan) : fpEncodeNat mode a = encNan mode (sign64 a) (fraction64 a) :=
  if_pos ((class64_eq_nan_iff a).mp h)

theorem fpEncodeNat_of_infinity (hE : exponent64 a = 2047) (hF : fraction64 a = 0) :
    fpEncodeNat mode a = (sign64 a <<< 15) ||| 0x7C00 := by
  simp [fpEncodeNat, hE, hF]

theorem fpEncodeNat_of_zero (hE : exponent64 a = 0) (hF : fraction64 a = 0) :
    fpEncodeNat mode a = (sign64 a <<< 15) ||| 0 := by
  simp [fpEncodeNat, hE, hF]

theorem fpEncodeNat_of_finite (hE : exponent64 a ≤ 2046) (nonzero : ¬(exponent64 a = 0 ∧ fraction64 a = 0)) :
    fpEncodeNat mode a = (sign64 a <<< 15) |||
      encMagnitude (significand64 (exponent64 a) (fraction64 a)) (unbiased64 (exponent64 a)) := by
  have : exponent64 a ≠ 2047 := by omega
  simp only [fpEncodeNat, this, false_and, if_false, if_neg nonzero]

end byClass

/-- Every NaN mode but POSITIVE_CANONICAL keeps the sign over 15 magnitude bits (R103). -/
theorem encNan_eq_pack {mode : EncNanMode} (s : Nat) {F : Nat} (hF : F < 2 ^ 52) (hm : mode ≠ .positiveCanonical) :
    ∃ mag < 2 ^ 15, encNan mode s F = (s <<< 15) ||| mag := by
  cases mode with
  | signCanonical => exact ⟨0x7E00, by decide, rfl⟩
  | positiveCanonical => exact absurd rfl hm
  | payloadQuiet =>
    have payload_lt : F >>> 42 < 2 ^ 15 := by
      rw [Nat.shiftRight_eq_div_pow]
      omega
    refine ⟨0x7C00 ||| (0x0200 ||| (F >>> 42)),
      Nat.or_lt_two_pow (by decide) (Nat.or_lt_two_pow (by decide) payload_lt), ?_⟩
    simp only [encNan, Nat.or_assoc]

/-- A result is the input's sign over 15 magnitude bits, but for a NaN in mode POSITIVE_CANONICAL (R114). -/
theorem fpEncodeNat_eq_pack {mode : EncNanMode} {a : Fp64} (h : ¬(class64 a = .nan ∧ mode = .positiveCanonical)) :
    ∃ mag < 2 ^ 15, fpEncodeNat mode a = (sign64 a <<< 15) ||| mag := by
  have hF := fraction64_lt a
  by_cases nan : class64 a = .nan
  · rw [fpEncodeNat_of_nan mode nan]
    exact encNan_eq_pack _ hF fun hm => h ⟨nan, hm⟩
  · have not_nan := mt (class64_eq_nan_iff a).mpr nan
    by_cases hE : exponent64 a = 2047
    · exact ⟨0x7C00, by decide, fpEncodeNat_of_infinity mode hE (by simpa [hE] using not_nan)⟩
    · by_cases zero : exponent64 a = 0 ∧ fraction64 a = 0
      · exact ⟨0, by decide, fpEncodeNat_of_zero mode zero.1 zero.2⟩
      · have := exponent64_lt a
        exact ⟨_, (encMagnitude_le hF).trans_lt (by decide), fpEncodeNat_of_finite mode (by omega) zero⟩

theorem toNat_ofNat_pack {s mag : Nat} (hs : s ≤ 1) (hmag : mag < 2 ^ 15) :
    (BitVec.ofNat 16 ((s <<< 15) ||| mag)).toNat = 2 ^ 15 * s + mag := by
  rw [shiftLeft_or_eq_add hmag, BitVec.toNat_ofNat]
  omega

theorem ofNat_pack_eq_ite (a : Fp64) (mag : Nat) : BitVec.ofNat 16 ((sign64 a <<< 15) ||| mag) =
    if a.getLsbD 63 then BitVec.ofNat 16 (0x8000 ||| mag) else BitVec.ofNat 16 mag := by
  rw [sign64_eq_ite]
  split
  · rfl
  · simp only [Nat.zero_shiftLeft, Nat.zero_or]

theorem fpEncode_of_infinity (mode : EncNanMode) {a : Fp64} (hE : exponent64 a = 2047) (hF : fraction64 a = 0) :
    fpEncode mode a = if a.getLsbD 63 then 0xFC00#16 else 0x7C00#16 := by
  rw [fpEncode, fpEncodeNat_of_infinity mode hE hF, ofNat_pack_eq_ite]
  rfl

theorem fpEncode_of_zero (mode : EncNanMode) {a : Fp64} (hE : exponent64 a = 0) (hF : fraction64 a = 0) :
    fpEncode mode a = if a.getLsbD 63 then 0x8000#16 else 0x0000#16 := by
  rw [fpEncode, fpEncodeNat_of_zero mode hE hF, ofNat_pack_eq_ite]
  rfl

theorem fpEncode_toNat_of_finite (mode : EncNanMode) {a : Fp64} (hE : exponent64 a ≤ 2046)
    (nonzero : ¬(exponent64 a = 0 ∧ fraction64 a = 0)) :
    (fpEncode mode a).toNat = 2 ^ 15 * sign64 a +
      encMagnitude (significand64 (exponent64 a) (fraction64 a)) (unbiased64 (exponent64 a)) := by
  have magnitude_lt := (encMagnitude_le (E := exponent64 a) (fraction64_lt a)).trans_lt (by decide : 0x7C00 < 2 ^ 15)
  rw [fpEncode, fpEncodeNat_of_finite mode hE nonzero, toNat_ofNat_pack (sign64_le_one a) magnitude_lt]

/-- Bit 15 of the result (R114). -/
theorem fpEncode_bit15 (mode : EncNanMode) (a : Fp64) : (fpEncode mode a).getLsbD 15 =
    if class64 a = .nan ∧ mode = .positiveCanonical then false else a.getLsbD 63 := by
  split
  case isTrue h =>
    obtain ⟨nan, rfl⟩ := h
    rw [fpEncode, fpEncodeNat_of_nan _ nan]
    change (0x7E00#16).getLsbD 15 = false
    decide
  case isFalse h =>
    obtain ⟨mag, mag_lt, word⟩ := fpEncodeNat_eq_pack h
    have sign_kept : sign16 (fpEncode mode a) = sign64 a :=
      sign16_of_toNat (by rw [fpEncode, word, toNat_ofNat_pack (sign64_le_one a) mag_lt]) mag_lt
    rw [← decide_sign16_eq_one, sign_kept, decide_sign64_eq_one]

/-! ### The application -/

/-- An encode application completes, shows the conversion of its operand, and that is the word the host reads. -/
theorem exec_fp64ToFp16_next (a : Fp64) (s : State) : ∃ t, exec (.fp64ToFp16 a) s = .next t ∧
    t.fp16Out = fpEncode s.params.encNanMode a ∧ t.outputs = s.outputs ++ [.fp16 t.fp16Out] :=
  ⟨_, execFp64ToFp16_eq a s, rfl, rfl⟩

/-- Settles O9: the one word is `fpEncode mode a`; a state of the mode, here reset's in that build, shows there is no other. -/
theorem encodeIsTotalAndReadsOnlyItsInput : Obligations.EncodeIsTotalAndReadsOnlyItsInput := by
  intro mode a
  refine ⟨fpEncode mode a, ?completes, fun h only => ?unique⟩
  case completes =>
    rintro s rfl
    obtain ⟨t, run, out, read⟩ := exec_fp64ToFp16_next a s
    exact ⟨t, run, out, out ▸ read⟩
  case unique =>
    let s : State := { State.reset with params := { Params.default with encNanMode := mode } }
    obtain ⟨t, run, out, -⟩ := only s rfl
    obtain ⟨u, run', out', -⟩ := exec_fp64ToFp16_next a s
    obtain rfl : t = u := Host.Outcome.next.inj (run.symm.trans run')
    rw [← out, out']

/-- Settles O10. -/
theorem encodeOfZeroIsSignedZero : Obligations.EncodeOfZeroIsSignedZero := by
  intro a s zero
  obtain ⟨t, run, out, read⟩ := exec_fp64ToFp16_next a s
  refine ⟨t, run, ?_, read⟩
  obtain rfl | rfl := zero
  · rw [out, fpEncode_of_zero _ rfl rfl]
    rfl
  · rw [out, fpEncode_of_zero _ rfl rfl]
    rfl

/-- Settles O11. -/
theorem encodeOfInfinityIsInfinity : Obligations.EncodeOfInfinityIsInfinity := by
  intro a s hE hF
  obtain ⟨t, run, out, read⟩ := exec_fp64ToFp16_next a s
  exact ⟨t, run, out.trans (fpEncode_of_infinity _ hE hF), read⟩

/-- Settles O14: `n` rounds `M / 2^42` to 1024 up to 2048, so the magnitude runs from the least normal's to infinity's. -/
theorem encodeRoundsInTheNormalRange : Obligations.EncodeRoundsInTheNormalRange := by
  intro a s lo hi M n
  have exponent_ne_zero : exponent64 a ≠ 0 := by omega
  have hF := fraction64_lt a
  have value : (M : ℚ) / 2 ^ 42 * 2 ^ (((exponent64 a : ℤ) - 1023) - 10) =
      M * 2 ^ ((exponent64 a : ℤ) - 1023 - 52) := by
    rw [← mul_two_zpow_eq_quanta]
    congr 2
    push_cast
    ring
  have bounds : 1024 ≤ n ∧ n ≤ 2048 := rneShift_42_bounds (by omega) (by omega)
  obtain ⟨t, run, out, read⟩ := exec_fp64ToFp16_next a s
  have word : t.fp16Out.toNat = 2 ^ 15 * sign64 a + ((exponent64 a - 1008) * 2 ^ 10 + (n - 1024)) := by
    rw [out, fpEncode_toNat_of_finite _ (by omega) (by simp [exponent_ne_zero]), encMagnitude_of_normal _ lo hi]
  refine ⟨class64_of_normal (by omega) (by omega), ?_, bounds.1, bounds.2, t, run, word, fun no_carry => ?_, ?_, read⟩
  · rw [value, value64_of_finite (by omega), significand64_of_ne_zero _ exponent_ne_zero,
      unbiased64_of_ne_zero exponent_ne_zero]
  · exact ⟨exponent16_of_toNat word (by omega) (by omega), mantissa16_of_toNat word (by omega)⟩
  · exact class16_normal_or_infinity word (by omega) (by omega)

/-- Settles O15: `M` is below 1024 quanta of `2^−24`, which bounds the value and `n`, and `n` is the whole magnitude. -/
theorem encodeRoundsInTheSubnormalRange : Obligations.EncodeRoundsInTheSubnormalRange := by
  intro a s hi nonzero M k n
  have shift : (k : ℤ) = 28 - unbiased64 (exponent64 a) := subnormalShift_cast hi
  have M_lt : M < 2 ^ 10 * 2 ^ k := significand64_lt_quanta (fraction64_lt a) hi
  have n_le : n ≤ 1024 := rneShift_le_1024 M_lt
  have value : (M : ℚ) / 2 ^ k * 2 ^ (-24 : ℤ) = M * 2 ^ (unbiased64 (exponent64 a) - 52) := by
    rw [← mul_two_zpow_eq_quanta, shift]
    congr 2
    ring
  have below_normal : (M : ℚ) / 2 ^ k * 2 ^ (-24 : ℤ) < 2 ^ (-14 : ℤ) := by
    have quanta_lt : (M : ℚ) / 2 ^ k < 2 ^ 10 := by
      rw [div_lt_iff₀ (by positivity)]
      exact_mod_cast M_lt
    calc (M : ℚ) / 2 ^ k * 2 ^ (-24 : ℤ) < 2 ^ 10 * 2 ^ (-24 : ℤ) := by gcongr
      _ = 2 ^ (-14 : ℤ) := by norm_num
  obtain ⟨t, run, out, read⟩ := exec_fp64ToFp16_next a s
  have word : t.fp16Out.toNat = 2 ^ 15 * sign64 a + n := by
    rw [out, fpEncode_toNat_of_finite _ (by omega) nonzero, encMagnitude_of_subnormal _ hi]
    rfl
  have fields : t.fp16Out.toNat = 2 ^ 15 * sign64 a + (0 * 2 ^ 10 + n) := by rw [word, zero_mul, zero_add]
  refine ⟨?_, below_normal, subnormalShift_ge hi, significand64_lt (fraction64_lt a), n_le, t, run, word,
    fun no_carry => ?_, read⟩
  · rw [value]
    exact value64_of_finite (by omega)
  · exact ⟨exponent16_of_toNat fields (by decide) no_carry, mantissa16_of_toNat fields no_carry⟩

/-- Settles O16: bit 15 is the sign kept, and it is all of a negative word whose magnitude bits are 0. -/
theorem encodeKeepsTheSignBit : Obligations.EncodeKeepsTheSignBit := by
  intro a s
  obtain ⟨t, run, out, read⟩ := exec_fp64ToFp16_next a s
  have bit15 := out ▸ fpEncode_bit15 s.params.encNanMode a
  refine ⟨t, run, read, bit15, fun negative not_nan low => eq_negZero_of_bit15 ?_ low⟩
  rw [bit15, if_neg fun h => not_nan h.1, negative]

end Sys2Proof.Machine
end

section
/-! PROOF. The decode application: the fields of the word it shows, by the class of its input (41_fp16_to_fp64.md section 2).
Encode undoes decode on every pattern that is not a NaN, so decode loses nothing of one (R149, R150). -/

namespace Sys2Proof.Machine

/-! ### A binary64 word packed from its fields (R62) -/

/-- `(s << 63) | (E << 52) | F`, the form of every result of R140. -/
def pack64 (s E F : Nat) : Fp64 := BitVec.ofNat 64 ((s <<< 63) ||| (E <<< 52) ||| F)

section pack64
variable {s E F : Nat} (hs : s ≤ 1) (hE : E < 2048) (hF : F < 2 ^ 52)
include hs hE hF

theorem pack64_toNat : (pack64 s E F).toNat = 2 ^ 63 * s + 2 ^ 52 * E + F := by
  have low_or : (E <<< 52) ||| F = E * 2 ^ 52 + F := shiftLeft_or_eq_add hF
  have low_lt : E * 2 ^ 52 + F < 2 ^ 63 := by omega
  rw [pack64, Nat.or_assoc, low_or, shiftLeft_or_eq_add low_lt, BitVec.toNat_ofNat]
  omega

theorem sign64_pack64 : sign64 (pack64 s E F) = s := by
  rw [sign64, pack64_toNat hs hE hF, Nat.shiftRight_eq_div_pow]
  omega

theorem exponent64_pack64 : exponent64 (pack64 s E F) = E := by
  rw [exponent64, pack64_toNat hs hE hF, Nat.shiftRight_eq_div_pow]
  omega

theorem fraction64_pack64 : fraction64 (pack64 s E F) = F := by
  rw [fraction64, pack64_toNat hs hE hF]
  omega

theorem class64_pack64_eq_nan_iff : class64 (pack64 s E F) = .nan ↔ E = 2047 ∧ F ≠ 0 := by
  rw [class64_eq_nan_iff, exponent64_pack64 hs hE hF, fraction64_pack64 hs hE hF]

/-- Encode's word for a packed finite operand that is not zero (R108 to R110). -/
theorem fpEncode_pack64_toNat (mode : EncNanMode) (finite : E ≤ 2046) (nonzero : E ≠ 0) :
    (fpEncode mode (pack64 s E F)).toNat = 2 ^ 15 * s + encMagnitude (2 ^ 52 + F) (unbiased64 E) := by
  have exponent := exponent64_pack64 hs hE hF
  rw [fpEncode_toNat_of_finite mode (by omega) (by omega), sign64_pack64 hs hE hF, exponent,
    fraction64_pack64 hs hE hF, significand64_of_ne_zero F nonzero]

end pack64

/-! ### The classes of a binary16 pattern, by its fields (R61) -/

theorem class16_eq_nan_iff (h : Fp16) : class16 h = .nan ↔ exponent16 h = 31 ∧ mantissa16 h ≠ 0 := by
  have := exponent16_lt h
  simp only [class16]
  split_ifs <;> simp <;> omega

/-- A pattern that is not a NaN is a zero, a subnormal, a normal or an infinity. -/
theorem fields16_of_not_nan {h : Fp16} (not_nan : class16 h ≠ .nan) :
    (exponent16 h = 0 ∧ mantissa16 h = 0) ∨ (exponent16 h = 0 ∧ mantissa16 h ≠ 0) ∨
    (1 ≤ exponent16 h ∧ exponent16 h ≤ 30) ∨ (exponent16 h = 31 ∧ mantissa16 h = 0) := by
  have := exponent16_lt h
  have := mt (class16_eq_nan_iff h).mpr not_nan
  omega

/-- The two patterns of one exponent and mantissa differ in the sign alone. -/
theorem eq_or_eq_of_fields16 {h : Fp16} {e m : Nat} (he : exponent16 h = e) (hm : mantissa16 h = m) :
    h = BitVec.ofNat 16 (e * 2 ^ 10 + m) ∨ h = BitVec.ofNat 16 (2 ^ 15 + (e * 2 ^ 10 + m)) := by
  have fields := toNat_eq_fields16 h
  have := sign16_le_one h
  have := h.isLt
  rcases (by omega : sign16 h = 0 ∨ sign16 h = 1) with zero | one
  · exact .inl (BitVec.eq_of_toNat_eq (by rw [BitVec.toNat_ofNat]; omega))
  · exact .inr (BitVec.eq_of_toNat_eq (by rw [BitVec.toNat_ofNat]; omega))

/-! ### The word by class -/

/-- The leading one of `m` is moved to bit 52, and the fraction field is what stands below it (R143). -/
theorem two_pow_add_normalised {m : Nat} (nonzero : m ≠ 0) (hm : m < 1024) :
    msbIndex m ≤ 9 ∧ 2 ^ 52 + (m <<< (52 - msbIndex m)) % 2 ^ 52 = m * 2 ^ (52 - msbIndex m) := by
  have low : 2 ^ msbIndex m ≤ m := Nat.log2_self_le nonzero
  have high : m < 2 ^ (msbIndex m + 1) := Nat.lt_log2_self
  have index_le : msbIndex m ≤ 9 := Nat.le_of_lt_succ ((Nat.log2_lt nonzero).mpr hm)
  have index_sum : msbIndex m + (52 - msbIndex m) = 52 := by omega
  have leading : 2 ^ 52 ≤ m * 2 ^ (52 - msbIndex m) :=
    calc 2 ^ 52 = 2 ^ msbIndex m * 2 ^ (52 - msbIndex m) := by rw [← pow_add, index_sum]
      _ ≤ m * 2 ^ (52 - msbIndex m) := Nat.mul_le_mul_right _ low
  have bounded : m * 2 ^ (52 - msbIndex m) < 2 ^ 53 :=
    calc m * 2 ^ (52 - msbIndex m) < 2 ^ (msbIndex m + 1) * 2 ^ (52 - msbIndex m) := by gcongr
      _ = 2 ^ 53 := by rw [← pow_add, add_right_comm, index_sum]
  refine ⟨index_le, ?_⟩
  rw [Nat.shiftLeft_eq]
  omega

section byClass
variable (mode : DecNanMode) {h : Fp16}

theorem fpDecode_of_zero (he : exponent16 h = 0) (hm : mantissa16 h = 0) :
    fpDecode mode h = pack64 (sign16 h) 0 0 := by
  simp [fpDecode, fpDecodeNat, pack64, he, hm]

theorem fpDecode_of_subnormal (he : exponent16 h = 0) (hm : mantissa16 h ≠ 0) :
    fpDecode mode h = pack64 (sign16 h) (msbIndex (mantissa16 h) + 999)
      ((mantissa16 h <<< (52 - msbIndex (mantissa16 h))) % 2 ^ 52) := by
  simp only [fpDecode, fpDecodeNat, pack64, he, hm, and_false, if_false, if_true]

theorem fpDecode_of_normal (lo : 1 ≤ exponent16 h) (hi : exponent16 h ≤ 30) :
    fpDecode mode h = pack64 (sign16 h) (exponent16 h + 1008) (mantissa16 h * 2 ^ 42) := by
  have exponent_ne_zero : exponent16 h ≠ 0 := Nat.one_le_iff_ne_zero.mp lo
  simp only [fpDecode, fpDecodeNat, pack64, exponent_ne_zero, false_and, if_false, if_pos hi, Nat.shiftLeft_eq]

theorem fpDecode_of_infinity (he : exponent16 h = 31) (hm : mantissa16 h = 0) :
    fpDecode mode h = pack64 (sign16 h) 2047 0 := by
  simp [fpDecode, fpDecodeNat, pack64, he, hm]

theorem fpDecode_of_nan (he : exponent16 h = 31) (hm : mantissa16 h ≠ 0) :
    fpDecode mode h = BitVec.ofNat 64 (decNan mode (sign16 h) (mantissa16 h)) := by
  simp [fpDecode, fpDecodeNat, he, hm]

end byClass

/-- Every NaN mode answers exponent field 2047 over a fraction that is not 0 (R146). -/
theorem decNan_eq_pack64 (mode : DecNanMode) {s m : Nat} (hs : s ≤ 1) (hm : m < 1024) :
    ∃ s' F, s' ≤ 1 ∧ F ≠ 0 ∧ F < 2 ^ 52 ∧ BitVec.ofNat 64 (decNan mode s m) = pack64 s' 2047 F := by
  cases mode with
  | payloadQuiet =>
    have payload_lt : m ||| 0x200 < 2 ^ 10 := Nat.or_lt_two_pow hm (by decide)
    have quiet : 0x200 ≤ m ||| 0x200 := Nat.right_le_or
    refine ⟨s, (m ||| 0x200) <<< 42, hs, ?_, ?_, rfl⟩ <;> rw [Nat.shiftLeft_eq] <;> omega
  | signCanonical =>
    refine ⟨s, 2 ^ 51, hs, by decide, by decide, ?_⟩
    rw [pack64, Nat.or_assoc]
    rfl
  | positiveCanonical => exact ⟨0, 2 ^ 51, by decide, by decide, by decide, rfl⟩

/-- Decode answers a NaN for a NaN only (R146, R147). -/
theorem class64_fpDecode_eq_nan_iff (mode : DecNanMode) (h : Fp16) :
    class64 (fpDecode mode h) = .nan ↔ class16 h = .nan := by
  have hs := sign16_le_one h
  have hm := mantissa16_lt h
  by_cases nan : class16 h = .nan
  · obtain ⟨he, nonzero⟩ := (class16_eq_nan_iff h).mp nan
    obtain ⟨s, F, hs', hF, F_lt, word⟩ := decNan_eq_pack64 mode hs hm
    rw [fpDecode_of_nan mode he nonzero, word, class64_pack64_eq_nan_iff hs' (by decide) F_lt]
    exact iff_of_true ⟨rfl, hF⟩ nan
  · refine iff_of_false ?_ nan
    obtain ⟨he, hm0⟩ | ⟨he, hm0⟩ | ⟨lo, hi⟩ | ⟨he, hm0⟩ := fields16_of_not_nan nan
    · rw [fpDecode_of_zero mode he hm0, class64_pack64_eq_nan_iff hs (by decide) (by decide)]
      decide
    · have index_le := (two_pow_add_normalised hm0 hm).1
      rw [fpDecode_of_subnormal mode he hm0,
        class64_pack64_eq_nan_iff hs (by omega) (Nat.mod_lt _ (by decide))]
      omega
    · rw [fpDecode_of_normal mode lo hi, class64_pack64_eq_nan_iff hs (by omega) (by omega)]
      omega
    · rw [fpDecode_of_infinity mode he hm0, class64_pack64_eq_nan_iff hs (by decide) (by decide)]
      decide

/-! ### Encode undoes decode -/

/-- A whole number of quanta is not rounded (R107). -/
theorem rneShift_mul_two_pow (n k : Nat) : rneShift (n * 2 ^ k) k = n := by
  have half_pos := Nat.two_pow_pos (k - 1)
  rw [rneShift_eq, Nat.mul_mod_left, Nat.mul_div_cancel n (Nat.two_pow_pos k), if_neg (by omega), Nat.add_zero]

/-- R150 item 1: on a pattern that is not a NaN, in every mode of either block. -/
theorem fpEncode_fpDecode (em : EncNanMode) (dm : DecNanMode) {h : Fp16} (not_nan : class16 h ≠ .nan) :
    fpEncode em (fpDecode dm h) = h := by
  have fields := toNat_eq_fields16 h
  have hs := sign16_le_one h
  have hm := mantissa16_lt h
  apply BitVec.eq_of_toNat_eq
  obtain ⟨he, hm0⟩ | ⟨he, hm0⟩ | ⟨lo, hi⟩ | ⟨he, hm0⟩ := fields16_of_not_nan not_nan
  case inl =>
    have E_zero := exponent64_pack64 hs (E := 0) (F := 0) (by decide) (by decide)
    have F_zero := fraction64_pack64 hs (E := 0) (F := 0) (by decide) (by decide)
    rw [fpDecode_of_zero dm he hm0, fpEncode, fpEncodeNat_of_zero em E_zero F_zero,
      sign64_pack64 hs (by decide) (by decide), toNat_ofNat_pack hs (by decide)]
    omega
  case inr.inl =>
    obtain ⟨index_le, normalised⟩ := two_pow_add_normalised hm0 hm
    have shift : subnormalShift (msbIndex (mantissa16 h) + 999) = 52 - msbIndex (mantissa16 h) := by
      rw [subnormalShift, if_neg (by omega)]
      omega
    rw [fpDecode_of_subnormal dm he hm0,
      fpEncode_pack64_toNat hs (by omega) (Nat.mod_lt _ (by decide)) em (by omega) (by omega),
      encMagnitude_of_subnormal _ (by omega), normalised, shift, rneShift_mul_two_pow]
    omega
  case inr.inr.inl =>
    have quanta : 2 ^ 52 + mantissa16 h * 2 ^ 42 = (1024 + mantissa16 h) * 2 ^ 42 := by omega
    have magnitude := encMagnitude_of_normal (E := exponent16 h + 1008) (mantissa16 h * 2 ^ 42)
      (by omega) (by omega)
    rw [significand64_of_ne_zero _ (by omega), quanta, rneShift_mul_two_pow] at magnitude
    rw [fpDecode_of_normal dm lo hi, fpEncode_pack64_toNat hs (by omega) (by omega) em (by omega) (by omega),
      quanta, magnitude]
    omega
  case inr.inr.inr =>
    have E_max := exponent64_pack64 hs (E := 2047) (F := 0) (by decide) (by decide)
    have F_zero := fraction64_pack64 hs (E := 2047) (F := 0) (by decide) (by decide)
    rw [fpDecode_of_infinity dm he hm0, fpEncode, fpEncodeNat_of_infinity em E_max F_zero,
      sign64_pack64 hs (by decide) (by decide), toNat_ofNat_pack hs (by decide)]
    omega

/-- Two patterns that are not NaNs are told apart by encode, and a NaN's result is a NaN (R149). -/
theorem fpDecode_inj_of_not_nan {mode : DecNanMode} {h k : Fp16} (not_nan : class16 h ≠ .nan)
    (same : fpDecode mode h = fpDecode mode k) : h = k := by
  have k_not_nan : class16 k ≠ .nan := by
    rwa [ne_eq, ← class64_fpDecode_eq_nan_iff mode, ← same, class64_fpDecode_eq_nan_iff]
  rw [← fpEncode_fpDecode .signCanonical mode not_nan, same, fpEncode_fpDecode _ _ k_not_nan]

/-! ### The application -/

/-- A decode application completes, shows the conversion of its operand, and that is the word the host reads. -/
theorem exec_fp16ToFp64_next (h : Fp16) (s : State) : ∃ t, exec (.fp16ToFp64 h) s = .next t ∧
    t.fp64Out = fpDecode s.params.decNanMode h ∧ t.outputs = s.outputs ++ [.fp64 t.fp64Out] :=
  ⟨_, execFp16ToFp64_eq h s, rfl, rfl⟩

/-- Settles O29: the one word is `fpDecode mode h`, since reset's state in a build of the mode shows no other; and encode
undoes it. -/
theorem decodeIsTotalAndLossFree : Obligations.DecodeIsTotalAndLossFree := by
  refine ⟨fun mode h => ⟨fpDecode mode h, ?completes, fun d only => ?unique⟩, fun _ _ _ => fpDecode_inj_of_not_nan⟩
  case completes =>
    rintro s rfl
    obtain ⟨t, run, out, read⟩ := exec_fp16ToFp64_next h s
    exact ⟨t, run, out, out ▸ read⟩
  case unique =>
    obtain ⟨t, run, rfl, -⟩ := only { State.reset with params := { Params.default with decNanMode := mode } } rfl
    obtain rfl := Host.Outcome.next.inj (run.symm.trans (execFp16ToFp64_eq h _))
    rfl

/-- Settles O33: the infinities are the two patterns 0x7C00 and 0xFC00, and their words are the two of binary64. -/
theorem decodeOfInfinityIsInfinity : Obligations.DecodeOfInfinityIsInfinity := by
  intro h s he hm
  obtain ⟨t, run, out, read⟩ := exec_fp16ToFp64_next h s
  have pattern : h = 0x7C00#16 ∨ h = 0xFC00#16 := eq_or_eq_of_fields16 he hm
  refine ⟨t, run, ?_, pattern, read⟩
  rw [out, fpDecode_of_infinity _ he hm]
  obtain rfl | rfl := pattern
  · rfl
  · rfl

/-- Settles O30: the zeros are the two patterns 0x0000 and 0x8000, and their words are the two of binary64. -/
theorem decodeOfZeroIsSignedZero : Obligations.DecodeOfZeroIsSignedZero := by
  intro h s he hm
  obtain ⟨t, run, out, read⟩ := exec_fp16ToFp64_next h s
  have pattern : h = 0x0000#16 ∨ h = 0x8000#16 := eq_or_eq_of_fields16 he hm
  refine ⟨t, run, ?_, pattern, read⟩
  rw [out, fpDecode_of_zero _ he hm]
  obtain rfl | rfl := pattern
  · rfl
  · rfl

end Sys2Proof.Machine
end

section
/-! PROOF. The host-side wrappers (42_host_wrappers.md): a hexadecimal digit's character and its value, what `to_hex` spells,
the tokens `from_hex` accepts, and the conversion batches. -/

namespace Sys2Proof.Machine

/-! ### Digits -/

/-- The digits 0 to 15 in uppercase. -/
def upperDigits : List Char := ['0', '1', '2', '3', '4', '5', '6', '7', '8', '9', 'A', 'B', 'C', 'D', 'E', 'F']

/-- The digits 0 to 15 in lowercase. -/
def lowerDigits : List Char := ['0', '1', '2', '3', '4', '5', '6', '7', '8', '9', 'a', 'b', 'c', 'd', 'e', 'f']

theorem upperDigits_getElem? {n : Nat} (h : n < 16) : upperDigits[n]? = some (hexDigit n) := by
  have table : ∀ v : Fin 16, upperDigits[v.val]? = some (hexDigit v) := by decide
  exact table ⟨n, h⟩

/-- The three runs of characters that have a value. -/
theorem hexValue?_eq_some_iff_toNat {c : Char} {v : Nat} : hexValue? c = some v ↔
    (v < 10 ∧ c.toNat = 48 + v) ∨ (10 ≤ v ∧ v < 16 ∧ c.toNat = 55 + v) ∨ (10 ≤ v ∧ v < 16 ∧ c.toNat = 87 + v) := by
  simp only [hexValue?]
  split_ifs <;> simp <;> omega

theorem hexValue?_lt {c : Char} {v : Nat} (h : hexValue? c = some v) : v < 16 := by
  rw [hexValue?_eq_some_iff_toNat] at h
  omega

/-- A character of one of the three runs stands in a table at its value. -/
theorem digit_of_hexValue? {c : Char} {v : Nat} (h : hexValue? c = some v) :
    upperDigits[v]? = some c ∨ lowerDigits[v]? = some c := by
  have decimal : ∀ v : Fin 16, v < 10 → upperDigits[v.val]? = some (Char.ofNat (48 + v)) := by decide
  have upper : ∀ v : Fin 16, 10 ≤ v → upperDigits[v.val]? = some (Char.ofNat (55 + v)) := by decide
  have lower : ∀ v : Fin 16, 10 ≤ v → lowerDigits[v.val]? = some (Char.ofNat (87 + v)) := by decide
  rw [← Char.ofNat_toNat c]
  obtain ⟨lt, code⟩ | ⟨ge, lt, code⟩ | ⟨ge, lt, code⟩ := hexValue?_eq_some_iff_toNat.mp h
  · exact .inl (code ▸ decimal ⟨v, by omega⟩ lt)
  · exact .inl (code ▸ upper ⟨v, lt⟩ ge)
  · exact .inr (code ▸ lower ⟨v, lt⟩ ge)

theorem hexValue?_of_digit {c : Char} {v : Nat} (h : upperDigits[v]? = some c ∨ lowerDigits[v]? = some c) :
    hexValue? c = some v := by
  have upper : ∀ v : Fin 16, hexValue? (upperDigits[v.val]'v.isLt) = some v.val := by decide
  have lower : ∀ v : Fin 16, hexValue? (lowerDigits[v.val]'v.isLt) = some v.val := by decide
  obtain h | h := h
  · obtain ⟨v_lt, rfl⟩ := List.getElem?_eq_some_iff.mp h
    exact upper ⟨v, v_lt⟩
  · obtain ⟨v_lt, rfl⟩ := List.getElem?_eq_some_iff.mp h
    exact lower ⟨v, v_lt⟩

/-! ### A number read from its digits -/

theorem hexNumber?_cons_eq_some_iff {acc n : Nat} {c : Char} {cs : Token} :
    hexNumber? acc (c :: cs) = some n ↔ ∃ d, hexValue? c = some d ∧ hexNumber? (16 * acc + d) cs = some n := by
  rw [hexNumber?]
  cases hexValue? c <;> simp

/-- The number is the fold of the digits' values, most significant first, and every character has a value. -/
theorem hexNumber?_eq_some_iff {acc n : Nat} {ds : Token} : hexNumber? acc ds = some n ↔
    ∃ vs : List Nat, List.Forall₂ (fun c v => hexValue? c = some v) ds vs ∧
      n = vs.foldl (fun acc v => 16 * acc + v) acc := by
  induction ds generalizing acc with
  | nil => simp [hexNumber?, eq_comm]
  | cons c cs ih =>
    rw [hexNumber?_cons_eq_some_iff]
    constructor
    · rintro ⟨d, value, rest⟩
      obtain ⟨vs, values, number⟩ := ih.mp rest
      exact ⟨d :: vs, .cons value values, number⟩
    · rintro ⟨_, values, number⟩
      obtain ⟨d, vs, value, rest, rfl⟩ := List.forall₂_cons_left_iff.mp values
      exact ⟨d, value, ih.mpr ⟨vs, rest, number⟩⟩

theorem hexNumber?_lt {acc n : Nat} {ds : Token} (h : hexNumber? acc ds = some n) :
    n < (acc + 1) * 16 ^ ds.length := by
  induction ds generalizing acc with
  | nil =>
    obtain rfl : acc = n := Option.some.inj h
    simp
  | cons c cs ih =>
    obtain ⟨d, value, rest⟩ := hexNumber?_cons_eq_some_iff.mp h
    have d_lt := hexValue?_lt value
    calc n < (16 * acc + d + 1) * 16 ^ cs.length := ih rest
      _ ≤ ((acc + 1) * 16) * 16 ^ cs.length := Nat.mul_le_mul_right _ (by omega)
      _ = (acc + 1) * 16 ^ (c :: cs).length := by rw [List.length_cons, pow_succ', mul_assoc]

/-! ### The optional `0x` or `0X` -/

/-- What R171 allows before the digits: nothing, `0x` or `0X`. -/
def IsHexPrefix (pre : Token) : Prop := pre = [] ∨ pre = ['0', 'x'] ∨ pre = ['0', 'X']

theorem exists_isHexPrefix_append_afterPrefix (t : Token) : ∃ pre, t = pre ++ afterPrefix t ∧ IsHexPrefix pre := by
  unfold afterPrefix
  split
  · exact ⟨['0', 'x'], rfl, .inr (.inl rfl)⟩
  · exact ⟨['0', 'X'], rfl, .inr (.inr rfl)⟩
  · exact ⟨[], rfl, .inl rfl⟩

/-- Nothing is cut off a token of digits, since neither `x` nor `X` is a digit. -/
theorem afterPrefix_of_digits {ds : Token} (digits : ∀ c ∈ ds, hexValue? c ≠ none) : afterPrefix ds = ds := by
  unfold afterPrefix
  split
  · exact absurd rfl (digits 'x' (by simp))
  · exact absurd rfl (digits 'X' (by simp))
  · rfl

theorem afterPrefix_append {pre ds : Token} (hpre : IsHexPrefix pre) (digits : ∀ c ∈ ds, hexValue? c ≠ none) :
    afterPrefix (pre ++ ds) = ds := by
  obtain rfl | rfl | rfl := hpre
  · exact afterPrefix_of_digits digits
  · rfl
  · rfl

theorem hexValue?_ne_none_of_forall₂ {ds : Token} {vs : List Nat}
    (values : List.Forall₂ (fun c v => hexValue? c = some v) ds vs) : ∀ c ∈ ds, hexValue? c ≠ none := by
  induction values with
  | nil => simp
  | cons value _ ih => exact List.forall_mem_cons.mpr ⟨by simp [value], ih⟩

/-! ### to_hex and from_hex -/

/-- Settles O53: digit `i` of the model's quotients is the slice of four bits there, and the table spells it. -/
theorem toHexSpellsTheFourDigits : Obligations.ToHexSpellsTheFourDigits := by
  intro b digit
  have spelled (i : Nat) : digit (b.extractLsb' i 4).toNat = some (hexDigit (b.toNat / 2 ^ i % 16)) := by
    rw [BitVec.extractLsb'_toNat, Nat.shiftRight_eq_div_pow]
    exact upperDigits_getElem? (Nat.mod_lt _ (by decide))
  rw [spelled, spelled, spelled, spelled]
  rfl

/-- Success of `from_hex`: one to four characters after the optional `0x` or `0X`, all digits; the word holds the whole number. -/
theorem fromHex_eq_ok_iff {t : Token} {b : Fp16} : fromHex t = .ok b ↔
    1 ≤ (afterPrefix t).length ∧ (afterPrefix t).length ≤ 4 ∧ hexNumber? 0 (afterPrefix t) = some b.toNat := by
  simp only [fromHex]
  split_ifs with len
  · simp only [len, true_and]
    cases number : hexNumber? 0 (afterPrefix t) with
    | none => simp
    | some v =>
      have v_lt : v < 2 ^ 16 :=
        calc v < (0 + 1) * 16 ^ (afterPrefix t).length := hexNumber?_lt number
          _ ≤ (0 + 1) * 16 ^ 4 := by gcongr; exacts [by decide, len.2]
      rw [Except.ok.injEq, Option.some.injEq, ← BitVec.toNat_inj, BitVec.toNat_ofNat, Nat.mod_eq_of_lt v_lt]
  · exact iff_of_false nofun fun ⟨lo, hi, _⟩ => len ⟨lo, hi⟩

/-- Settles O54: what `afterPrefix` leaves are the digits, and their values are those of the two tables. -/
theorem fromHexAcceptsExactlyTheTokens : Obligations.FromHexAcceptsExactlyTheTokens := by
  intro t b
  rw [fromHex_eq_ok_iff]
  constructor
  · rintro ⟨lo, hi, number⟩
    obtain ⟨pre, whole, hpre⟩ := exists_isHexPrefix_append_afterPrefix t
    obtain ⟨vs, values, fold⟩ := hexNumber?_eq_some_iff.mp number
    exact ⟨pre, afterPrefix t, vs, whole, hpre, lo, hi, values.imp fun _ _ => digit_of_hexValue?, fold⟩
  · rintro ⟨pre, ds, vs, rfl, hpre, lo, hi, in_tables, fold⟩
    have values : List.Forall₂ (fun c v => hexValue? c = some v) ds vs :=
      in_tables.imp fun _ _ => hexValue?_of_digit
    rw [afterPrefix_append hpre (hexValue?_ne_none_of_forall₂ values)]
    exact ⟨lo, hi, hexNumber?_eq_some_iff.mpr ⟨vs, values, fold⟩⟩

/-! ### The conversion batches -/

/-- Settles O57: a batch is the map of the conversion; no element of the source's example is a NaN, so no mode changes it. -/
theorem batchesAreElementWise : Obligations.BatchesAreElementWise := by
  refine ⟨fun mode xs => ⟨List.length_map _, fun i => List.getElem?_map⟩,
    fun mode hs => ⟨List.length_map _, fun i => List.getElem?_map⟩, fun mode => ⟨rfl, ?source⟩, fun mode => rfl⟩
  case source => cases mode <;> rfl

end Sys2Proof.Machine
end

section
/-! PROOF. Serialised applications (30_encoding.md section 3, 20_memory.md section 2): port words and their bytes in either
BYTE_ORDER, what the decoder answers, and its round trips with the encoder. -/

namespace Sys2Proof

/-! ### Bytes and the word they spell -/

theorem leNat_lt (bs : List Byte) : leNat bs < 256 ^ bs.length := by
  induction bs with
  | nil => decide
  | cons b bs ih =>
    have := b.isLt
    rw [leNat, List.length_cons, pow_succ']
    omega

theorem leBytes_leNat (bs : List Byte) : leBytes bs.length (leNat bs) = bs := by
  induction bs with
  | nil => rfl
  | cons b bs ih =>
    have := b.isLt
    have low : BitVec.ofNat 8 (leNat (b :: bs)) = b := by
      apply BitVec.eq_of_toNat_eq
      rw [leNat, BitVec.toNat_ofNat]
      omega
    have high : leNat (b :: bs) / 256 = leNat bs := by
      rw [leNat]
      omega
    rw [List.length_cons, leBytes, low, high, ih]

theorem wordNat_lt (o : ByteOrder) (bs : List Byte) : wordNat o bs < 256 ^ bs.length := by
  cases o with
  | little => exact leNat_lt bs
  | big => simpa [wordNat] using leNat_lt bs.reverse

theorem wordBytes_wordNat (o : ByteOrder) (bs : List Byte) : wordBytes o bs.length (wordNat o bs) = bs := by
  cases o with
  | little => exact leBytes_leNat bs
  | big =>
    have reversed := congrArg List.reverse (leBytes_leNat bs.reverse)
    rwa [List.length_reverse, List.reverse_reverse] at reversed

/-! ### The decoder's answers -/

/-- What is refused after a selector byte is an operand too short for its operation. -/
theorem decode_cons_eq_error_iff {o : ByteOrder} {sel : Byte} {rest : List Byte} :
    (∃ e, decode o (sel :: rest) = .error e) ↔
      (sel.getLsbD 0 = false ∧ rest.length < 8) ∨ (sel.getLsbD 0 = true ∧ rest.length < 2) := by
  rw [decode]
  split_ifs with op short short
  · exact iff_of_true ⟨_, rfl⟩ (.inr ⟨op, short⟩)
  · exact iff_of_false nofun (by simp_all)
  · exact iff_of_true ⟨_, rfl⟩ (.inl ⟨Bool.eq_false_of_not_eq_true op, short⟩)
  · exact iff_of_false nofun (by simp_all)

/-- An application decoded is the operand's bytes, under a selector byte whose bit 0 is its operation. -/
theorem decode_cons_eq_ok {o : ByteOrder} {sel : Byte} {bs rest : List Byte} {i : Instr}
    (h : decode o (sel :: bs) = .ok (i, rest)) :
    ∃ operand, bs = operand ++ rest ∧
      ((sel.getLsbD 0 = false ∧ operand.length = 8 ∧ i = .fp64ToFp16 (BitVec.ofNat 64 (wordNat o operand))) ∨
       (sel.getLsbD 0 = true ∧ operand.length = 2 ∧ i = .fp16ToFp64 (BitVec.ofNat 16 (wordNat o operand)))) := by
  cases op : sel.getLsbD 0 with
  | false =>
    by_cases long : 8 ≤ bs.length
    · rw [decode_op0 o sel bs op long] at h
      obtain ⟨rfl, rfl⟩ := Prod.mk.inj (Except.ok.inj h)
      exact ⟨bs.take 8, (List.take_append_drop 8 bs).symm, .inl ⟨rfl, List.length_take_of_le long, rfl⟩⟩
    · obtain ⟨e, refused⟩ := decode_cons_eq_error_iff (o := o).mpr (.inl ⟨op, Nat.lt_of_not_le long⟩)
      cases h.symm.trans refused
  | true =>
    by_cases long : 2 ≤ bs.length
    · rw [decode_op1 o sel bs op long] at h
      obtain ⟨rfl, rfl⟩ := Prod.mk.inj (Except.ok.inj h)
      exact ⟨bs.take 2, (List.take_append_drop 2 bs).symm, .inr ⟨rfl, List.length_take_of_le long, rfl⟩⟩
    · obtain ⟨e, refused⟩ := decode_cons_eq_error_iff (o := o).mpr (.inr ⟨op, Nat.lt_of_not_le long⟩)
      cases h.symm.trans refused

theorem selector_masked (sel : Byte) : sel &&& 1#8 = if sel.getLsbD 0 then 1#8 else 0#8 := by
  revert sel
  decide

/-! ### The round trips -/

/-- Settles O1: the operand's bytes are cut off where they were put, and they spell its pattern. -/
theorem decodeOfEncodeGivesTheApplication : Obligations.DecodeOfEncodeGivesTheApplication := by
  intro o i rest
  cases i with
  | fp64ToFp16 a =>
    rw [encode, List.cons_append, decode_op0 o _ _ (by simp [Instr.op]) (by simp)]
    simp [wordNat_wordBytes o 8 a.toNat a.isLt]
  | fp16ToFp64 h =>
    rw [encode, List.cons_append, decode_op1 o _ _ (by simp [Instr.op]) (by simp)]
    simp [wordNat_wordBytes o 2 h.toNat h.isLt]

/-- Settles O2: an operand's bytes are those of the word they spell, and the masked selector is its bit 0 alone. -/
theorem decodedBytesAreTheEncoding : Obligations.DecodedBytesAreTheEncoding := by
  intro o sel bs i rest h
  obtain ⟨operand, rfl, ⟨op, len, rfl⟩ | ⟨op, len, rfl⟩⟩ := decode_cons_eq_ok h
  · have fits : wordNat o operand < 2 ^ 64 := (wordNat_lt o operand).trans_eq (by rw [len]; rfl)
    have bytes := wordBytes_wordNat o operand
    rw [len] at bytes
    rw [selector_masked, op, encode, BitVec.toNat_ofNat, Nat.mod_eq_of_lt fits, bytes]
    rfl
  · have fits : wordNat o operand < 2 ^ 16 := (wordNat_lt o operand).trans_eq (by rw [len]; rfl)
    have bytes := wordBytes_wordNat o operand
    rw [len] at bytes
    rw [selector_masked, op, encode, BitVec.toNat_ofNat, Nat.mod_eq_of_lt fits, bytes]
    rfl

/-- Settles O3. -/
theorem writtenWordsDecode : Obligations.WrittenWordsDecode := by
  unfold Obligations.WrittenWordsDecode
  decide

/-- Settles O4: `decode` reads bit 0 of the selector byte only, and the mask keeps that bit. -/
theorem selectorBitNamesTheOperation : Obligations.SelectorBitNamesTheOperation := by
  refine ⟨fun o sel bs long => ⟨fun op => ⟨_, decode_op0 o sel bs op long⟩,
    fun op => ⟨_, decode_op1 o sel bs op (by omega)⟩⟩, fun o sel bs => ?_⟩
  have bit : (sel &&& 1#8).getLsbD 0 = sel.getLsbD 0 := by simp
  rw [decode, decode, bit]

/-- Settles O5: an operand long enough decodes, whatever its bytes are. -/
theorem decoderRefusesOnlyShortStreams : Obligations.DecoderRefusesOnlyShortStreams := by
  intro o bs
  cases bs with
  | nil => simp
  | cons sel rest =>
    rw [decode_cons_eq_error_iff]
    simp

end Sys2Proof
end

section
/-! PROOF. The machine: the word an application reads, what each of the host's moves does to the ports (70_reset_and_hazards.md
R233, R237), and what every step keeps. -/

namespace Sys2Proof.Machine

/-! ### The word an application reads -/

/-- What the host reads of an application in a build of the parameters `p` (R31). -/
def appliedWord (p : Params) : Instr → Output
  | .fp64ToFp16 a => .fp16 (fpEncode p.encNanMode a)
  | .fp16ToFp64 h => .fp64 (fpDecode p.decNanMode h)

/-- An application answers a next state, keeps the parameters and the rest of the script, and reads its operand's conversion. -/
theorem exec_appliedWord (i : Instr) (s : State) : ∃ t, exec i s = .next t ∧ t.params = s.params ∧ t.script = s.script ∧
    t.outputs = s.outputs ++ [appliedWord s.params i] := by
  cases i with
  | fp64ToFp16 a => exact ⟨_, execFp64ToFp16_eq a s, rfl, rfl, rfl⟩
  | fp16ToFp64 h => exact ⟨_, execFp16ToFp64_eq h s, rfl, rfl, rfl⟩

/-- Settles O50: the word read depends on the parameters alone, and those are kept. -/
theorem applicationsDoNotInteract : Obligations.ApplicationsDoNotInteract := by
  intro i j s
  obtain ⟨t, first, params, -, -⟩ := exec_appliedWord j s
  obtain ⟨u, second, -, -, read_after⟩ := exec_appliedWord i t
  obtain ⟨v, alone, -, -, read_alone⟩ := exec_appliedWord i s
  exact ⟨t, u, v, _, first, second, alone, read_alone, params ▸ read_after⟩

/-! ### Each settled output shows its input's conversion (R21) -/

theorem portsAgree_driveFp64In {s : State} (agree : s.portsAgree) (a : Fp64) : (s.driveFp64In a).portsAgree :=
  ⟨fun settled => if_pos settled, agree.2⟩

theorem portsAgree_driveFp16In {s : State} (agree : s.portsAgree) (h : Fp16) : (s.driveFp16In h).portsAgree :=
  ⟨agree.1, fun settled => if_pos settled⟩

theorem portsAgree_hold (s : State) (d : Nat) : (s.hold d).portsAgree :=
  ⟨fun settled => if_pos settled, fun settled => if_pos settled⟩

theorem portsAgree_readFp16Out {s : State} (agree : s.portsAgree) : s.readFp16Out.portsAgree := agree

theorem portsAgree_readFp64Out {s : State} (agree : s.portsAgree) : s.readFp64Out.portsAgree := agree

/-- An application ends in a hold, which brings both blocks' outputs up to date, and a read. -/
theorem portsAgree_exec {i : Instr} {s t : State} (run : exec i s = .next t) : t.portsAgree := by
  cases i with
  | fp64ToFp16 a =>
    obtain rfl := Host.Outcome.next.inj run
    exact portsAgree_readFp16Out (portsAgree_hold _ _)
  | fp16ToFp64 h =>
    obtain rfl := Host.Outcome.next.inj run
    exact portsAgree_readFp64Out (portsAgree_hold _ _)

/-- A hold leaves a settled encode output as it is, where the ports agree. -/
theorem hold_fp16Out_of_settled {s : State} (agree : s.portsAgree) (settled : s.encSettled) (d : Nat) :
    (s.hold d).fp16Out = s.fp16Out := by
  rw [State.hold_fp16Out, if_pos (settled.trans (Nat.le_add_right _ _)), agree.1 settled]

/-- A hold leaves a settled decode output as it is, where the ports agree. -/
theorem hold_fp64Out_of_settled {s : State} (agree : s.portsAgree) (settled : s.decSettled) (d : Nat) :
    (s.hold d).fp64Out = s.fp64Out := by
  rw [State.hold_fp64Out, if_pos (settled.trans (Nat.le_add_right _ _)), agree.2 settled]

/-! ### The frames of the two applications -/

/-- Settles O17: the decode block passes through the hold only, the drive and the read being the encode block's. -/
theorem encodeApplicationFrame : Obligations.EncodeApplicationFrame := by
  intro a s
  refine ⟨_, execFp64ToFp16_eq a s, rfl, Nat.le_add_left _ _, rfl, rfl, rfl, fun settled => if_pos settled, ?_, rfl, rfl⟩
  intro agree settled
  exact (if_pos (settled.trans (Nat.le_add_right _ _))).trans (agree.2 settled).symm

/-- Settles O35: the encode block passes through the hold only, the drive and the read being the decode block's. -/
theorem decodeApplicationFrame : Obligations.DecodeApplicationFrame := by
  intro h s
  refine ⟨_, execFp16ToFp64_eq h s, rfl, Nat.le_add_left _ _, rfl, rfl, rfl, fun settled => if_pos settled, ?_, rfl, rfl⟩
  intro agree settled
  exact (if_pos (settled.trans (Nat.le_add_right _ _))).trans (agree.1 settled).symm

/-! ### A step on a stream -/

/-- The rest of a stream waits before the other moves, unless it is used up (log 8). -/
theorem resumeStream_eq (s : State) (rest : List Byte) :
    s.resumeStream rest = { s with script := if rest = [] then s.script else .apply rest :: s.script } := by
  cases rest with
  | nil => rfl
  | cons b bs => rfl

/-- A step on a stream whose head decodes runs the application there. -/
theorem step_apply_of_decode {s : State} {bytes rest : List Byte} {moves : List HostMove} {i : Instr}
    (script : s.script = .apply bytes :: moves) (decoded : decode s.params.byteOrder bytes = .ok (i, rest)) :
    step s = exec i { s with script := if rest = [] then moves else .apply rest :: moves } := by
  cases bytes with
  | nil => cases decoded
  | cons b bs =>
    have run : runMove (.apply (b :: bs)) { s with script := moves } =
        exec i (({ s with script := moves } : State).resumeStream rest) := by
      simp only [runMove, applyStream, decoded]
    rw [step_cons script, run, resumeStream_eq]

/-- Settles O41. -/
theorem stepRunsTheDecodedApplication : Obligations.StepRunsTheDecodedApplication :=
  fun _ _ _ _ i script decoded => ⟨by cases i <;> rfl, step_apply_of_decode script decoded⟩

/-! ### What every step keeps -/

/-- What an answered step can have done, the script moved on: nothing more, an application, or one of the host's other moves. -/
theorem step_next_cases {s t : State} (h : step s = .next t) : ∃ (moves : List HostMove) (u : State),
    u = { s with script := moves } ∧
    (t = u ∨ (∃ i, exec i u = .next t) ∨ (∃ a, t = u.driveFp64In a) ∨ (∃ w, t = u.driveFp16In w) ∨
      (∃ d, t = u.hold d) ∨ t = u.readFp16Out ∨ t = u.readFp64Out) := by
  obtain ⟨-, stay⟩ | ⟨m, moves, -, move⟩ := step_cases s
  · obtain rfl := Host.Outcome.next.inj (h.symm.trans stay)
    exact ⟨t.script, t, rfl, .inl rfl⟩
  rw [move] at h
  obtain ⟨_, run⟩ | ⟨_, i, rest, _, _, run⟩ | ⟨_, _, _, _, _, run⟩ | ⟨a, _, run⟩ | ⟨w, _, run⟩ | ⟨d, _, run⟩ |
    ⟨_, run⟩ | ⟨_, run⟩ := runMove_cases m { s with script := moves }
  · exact ⟨moves, _, rfl, .inl (Host.Outcome.next.inj (h.symm.trans run))⟩
  · rw [run, resumeStream_eq] at h
    exact ⟨_, _, rfl, .inr (.inl ⟨i, h⟩)⟩
  · cases h.symm.trans run
  · exact ⟨moves, _, rfl, .inr (.inr (.inl ⟨a, Host.Outcome.next.inj (h.symm.trans run)⟩))⟩
  · exact ⟨moves, _, rfl, .inr (.inr (.inr (.inl ⟨w, Host.Outcome.next.inj (h.symm.trans run)⟩)))⟩
  · exact ⟨moves, _, rfl, .inr (.inr (.inr (.inr (.inl ⟨d, Host.Outcome.next.inj (h.symm.trans run)⟩))))⟩
  · exact ⟨moves, _, rfl, .inr (.inr (.inr (.inr (.inr (.inl (Host.Outcome.next.inj (h.symm.trans run)))))))⟩
  · exact ⟨moves, _, rfl, .inr (.inr (.inr (.inr (.inr (.inr (Host.Outcome.next.inj (h.symm.trans run)))))))⟩

/-- Settles O44: an application and a hold bring the outputs up to date, a drive its own block's, and a read changes no port. -/
theorem stepKeepsPortsAgree : Obligations.StepKeepsPortsAgree := by
  intro s t agree h
  obtain ⟨moves, u, rfl, rfl | ⟨i, run⟩ | ⟨a, rfl⟩ | ⟨w, rfl⟩ | ⟨d, rfl⟩ | rfl | rfl⟩ := step_next_cases h
  · exact agree
  · exact portsAgree_exec run
  · exact portsAgree_driveFp64In agree a
  · exact portsAgree_driveFp16In agree w
  · exact portsAgree_hold _ d
  · exact portsAgree_readFp16Out agree
  · exact portsAgree_readFp64Out agree

/-- What a step leaves of the parameters and of the words read. -/
theorem step_params_outputs {s t : State} (h : step s = .next t) :
    t.params = s.params ∧ ∃ xs, t.outputs = s.outputs ++ xs ∧ xs.length ≤ 1 := by
  obtain ⟨moves, u, rfl, rfl | ⟨i, run⟩ | ⟨a, rfl⟩ | ⟨w, rfl⟩ | ⟨d, rfl⟩ | rfl | rfl⟩ := step_next_cases h
  case inr.inl =>
    obtain ⟨t', run', params, -, read⟩ := exec_appliedWord i { s with script := moves }
    obtain rfl := Host.Outcome.next.inj (run.symm.trans run')
    exact ⟨params, _, read, le_rfl⟩
  case inr.inr.inr.inr.inr.inl => exact ⟨rfl, _, rfl, le_rfl⟩
  case inr.inr.inr.inr.inr.inr => exact ⟨rfl, _, rfl, le_rfl⟩
  all_goals exact ⟨rfl, [], (List.append_nil _).symm, Nat.zero_le _⟩

/-- Settles O46. -/
theorem stepKeepsBuildParameters : Obligations.StepKeepsBuildParameters := fun _ _ h => (step_params_outputs h).1

/-- Settles O47. -/
theorem stepOnlyAppendsOutputs : Obligations.StepOnlyAppendsOutputs := fun _ _ h => (step_params_outputs h).2

/-- Settles O45: reset has held its inputs for no time, and each `T_PD` is 1. -/
theorem resetIsUnsettledWithTheDefaultModes : Obligations.ResetIsUnsettledWithTheDefaultModes := by
  have enc : ¬State.reset.encSettled := by decide
  have dec : ¬State.reset.decSettled := by decide
  exact ⟨⟨fun settled => absurd settled enc, fun settled => absurd settled dec⟩, enc, dec, rfl, rfl⟩

/-! ### No fault, and no refusal of a whole stream -/

/-- A move that is refused is a stream whose head does not decode. -/
theorem runMove_refused {m : HostMove} {s : State} {r : Refusal} (refused : runMove m s = .refused r) :
    ∃ b bs e, m = .apply (b :: bs) ∧ decode s.params.byteOrder (b :: bs) = .error e ∧ r = .undecodable e := by
  obtain ⟨_, run⟩ | ⟨_, i, rest, _, _, run⟩ | ⟨bytes, e, hm, nonempty, broken, run⟩ | ⟨_, _, run⟩ | ⟨_, _, run⟩ |
    ⟨_, _, run⟩ | ⟨_, run⟩ | ⟨_, run⟩ := runMove_cases m s
  case inr.inl =>
    obtain ⟨t, answered, -⟩ := exec_appliedWord i (s.resumeStream rest)
    cases (refused.symm.trans run).trans answered
  case inr.inr.inl =>
    obtain ⟨b, bs, rfl⟩ := List.exists_cons_of_ne_nil nonempty
    exact ⟨b, bs, e, hm, broken, Host.Outcome.refused.inj (refused.symm.trans run)⟩
  all_goals cases refused.symm.trans run

/-- Settles O42: every other move is answered, an application among them. -/
theorem stepRefusesOnlyBrokenStreams : Obligations.StepRefusesOnlyBrokenStreams := by
  intro s r
  constructor
  · intro refused
    obtain ⟨-, stay⟩ | ⟨m, moves, script, move⟩ := step_cases s
    · cases refused.symm.trans stay
    · obtain ⟨b, bs, e, rfl, broken, rfl⟩ := runMove_refused (move.symm.trans refused)
      exact ⟨b, bs, moves, e, script, broken, rfl⟩
  · rintro ⟨b, bs, moves, e, script, broken, rfl⟩
    rw [step_cons script]
    simp only [runMove, applyStream, broken]

/-- A step of a whole script is answered, and what is left of the script is whole. -/
theorem step_of_wholeScript {s : State} (whole : s.wholeScript = true) : ∃ t, step s = .next t ∧ t.wholeScript = true := by
  obtain ⟨-, stay⟩ | ⟨m, moves, script, move⟩ := step_cases s
  · exact ⟨s, stay, whole⟩
  rw [State.wholeScript, script, List.all_cons, Bool.and_eq_true] at whole
  obtain ⟨whole_m, whole_moves⟩ := whole
  cases m with
  | apply bytes =>
    cases bytes with
    | nil => exact ⟨_, move, whole_moves⟩
    | cons b bs =>
      obtain ⟨i, rest, decoded, whole_rest⟩ := decode_whole s.params.byteOrder b bs whole_m
      obtain ⟨t, run, -, rest_script, -⟩ :=
        exec_appliedWord i { s with script := if rest = [] then moves else .apply rest :: moves }
      refine ⟨t, (step_apply_of_decode script decoded).trans run, ?_⟩
      rw [State.wholeScript, rest_script]
      split
      · exact whole_moves
      · exact Bool.and_eq_true_iff.mpr ⟨whole_rest, whole_moves⟩
  | driveFp64In a => exact ⟨_, move, whole_moves⟩
  | driveFp16In h => exact ⟨_, move, whole_moves⟩
  | hold d => exact ⟨_, move, whole_moves⟩
  | readFp16Out => exact ⟨_, move, whole_moves⟩
  | readFp64Out => exact ⟨_, move, whole_moves⟩

/-- Settles O43, by induction on the number of steps: a whole script stays whole. -/
theorem wholeScriptsRunSafely : Obligations.WholeScriptsRunSafely := by
  intro s whole n
  induction n generalizing s with
  | zero => exact ⟨s, rfl⟩
  | succ n ih =>
    obtain ⟨t, answered, whole_t⟩ := step_of_wholeScript whole
    rw [run_succ_of_step answered]
    exact ih t whole_t

/-! ### A stream of applications, step by step -/

/-- A stream of applications of either operation: each step reads one application's word, and the last uses the stream up. -/
theorem run_stream_of_applications (is : List Instr) (nonempty : is ≠ []) (s : State) (moves : List HostMove)
    (script : s.script = .apply (is.flatMap (encode s.params.byteOrder)) :: moves) :
    ∃ t, Sys2Proof.core.run is.length s = .next t ∧ t.script = moves ∧
      t.outputs = s.outputs ++ is.map (appliedWord s.params) := by
  induction is generalizing s with
  | nil => exact absurd rfl nonempty
  | cons i is ih =>
    obtain ⟨t, run, params, script_t, read⟩ := exec_appliedWord i
      { s with script := if is.flatMap (encode s.params.byteOrder) = [] then moves
          else .apply (is.flatMap (encode s.params.byteOrder)) :: moves }
    have answered : step s = .next t :=
      (step_apply_of_decode script (decodeOfEncodeGivesTheApplication _ i _)).trans run
    rw [List.length_cons, run_succ_of_step answered]
    cases is with
    | nil => exact ⟨t, rfl, script_t, read⟩
    | cons j js =>
      have more : (j :: js).flatMap (encode s.params.byteOrder) ≠ [] := by simp [encode]
      rw [if_neg more] at script_t
      obtain ⟨u, run_u, script_u, read_u⟩ := ih (List.cons_ne_nil _ _) t (params ▸ script_t)
      refine ⟨u, run_u, script_u, ?_⟩
      rw [read_u, read, params]
      exact List.append_assoc _ _ _

/-- Settles O51: both batches are streams of applications, of one operation each. -/
theorem streamOfApplicationsIsTheBatch : Obligations.StreamOfApplicationsIsTheBatch := by
  constructor
  · intro s xs moves nonempty script
    have stream := run_stream_of_applications (xs.map .fp64ToFp16) (by simpa using nonempty) s moves
      (by rw [script, List.flatMap_map])
    simpa [encodeBatch, appliedWord, Function.comp_def] using stream
  · intro s hs moves nonempty script
    have stream := run_stream_of_applications (hs.map .fp16ToFp64) (by simpa using nonempty) s moves
      (by rw [script, List.flatMap_map])
    simpa [decodeBatch, appliedWord, Function.comp_def] using stream

end Sys2Proof.Machine
end

section
/-! PROOF. The host's single moves (70_reset_and_hazards.md R233, R237): the frame of each, and what a read sees after a drive,
a hold, or an application of the other block. -/

namespace Sys2Proof.Machine

/-! ### What a read sees -/

theorem fp16OutSeen_hold {s : State} {d : Nat} (long : s.params.encTPd ≤ s.encHeld + d) :
    (s.hold d).fp16OutSeen = fpEncode s.params.encNanMode s.fp64In :=
  (fp16OutSeen_of_settled ((encSettled_hold s d).mpr long)).trans (if_pos long)

theorem fp64OutSeen_hold {s : State} {d : Nat} (long : s.params.decTPd ≤ s.decHeld + d) :
    (s.hold d).fp64OutSeen = fpDecode s.params.decNanMode s.fp16In :=
  (fp64OutSeen_of_settled ((decSettled_hold s d).mpr long)).trans (if_pos long)

/-- A new pattern held for less than `T_PD` reads as the draw that comes next. -/
theorem fp16OutSeen_hold_of_new {s : State} {a : Fp64} {d : Nat} (new : a ≠ s.fp64In) (short : d < s.params.encTPd) :
    ((s.driveFp64In a).hold d).fp16OutSeen = Config.encDraw (s.draws + 3) := by
  refine fp16OutSeen_of_unsettled fun settled => ?_
  rw [encSettled_hold, driveFp64In_encHeld_of_ne new, State.driveFp64In_params] at settled
  omega

theorem fp64OutSeen_hold_of_new {s : State} {h : Fp16} {d : Nat} (new : h ≠ s.fp16In) (short : d < s.params.decTPd) :
    ((s.driveFp16In h).hold d).fp64OutSeen = Config.decDraw (s.draws + 3) := by
  refine fp64OutSeen_of_unsettled fun settled => ?_
  rw [decSettled_hold, driveFp16In_decHeld_of_ne new, State.driveFp16In_params] at settled
  omega

/-- A new pattern read at once reads as the draw that comes next. -/
theorem fp16OutSeen_drive_of_new {s : State} {a : Fp64} (new : a ≠ s.fp64In) (pos : 0 < s.params.encTPd) :
    (s.driveFp64In a).fp16OutSeen = Config.encDraw (s.draws + 1) := by
  refine fp16OutSeen_of_unsettled fun settled => ?_
  rw [State.encSettled, driveFp64In_encHeld_of_ne new, State.driveFp64In_params] at settled
  omega

theorem fp64OutSeen_drive_of_new {s : State} {h : Fp16} (new : h ≠ s.fp16In) (pos : 0 < s.params.decTPd) :
    (s.driveFp16In h).fp64OutSeen = Config.decDraw (s.draws + 1) := by
  refine fp64OutSeen_of_unsettled fun settled => ?_
  rw [State.decSettled, driveFp16In_decHeld_of_ne new, State.driveFp16In_params] at settled
  omega

/-- The pattern already on a settled input reads as its conversion at once (log 14). -/
theorem fp16OutSeen_drive_same {s : State} (settled : s.encSettled) :
    (s.driveFp64In s.fp64In).fp16OutSeen = fpEncode s.params.encNanMode s.fp64In := by
  have still : s.params.encTPd ≤ if s.fp64In = s.fp64In then s.encHeld else 0 := by rwa [if_pos rfl]
  exact (fp16OutSeen_of_settled still).trans (if_pos still)

theorem fp64OutSeen_drive_same {s : State} (settled : s.decSettled) :
    (s.driveFp16In s.fp16In).fp64OutSeen = fpDecode s.params.decNanMode s.fp16In := by
  have still : s.params.decTPd ≤ if s.fp16In = s.fp16In then s.decHeld else 0 := by rwa [if_pos rfl]
  exact (fp64OutSeen_of_settled still).trans (if_pos still)

/-! ### The frame of each move -/

/-- Settles O49: the read is a draw, being unsettled, and writes no port. -/
theorem earlyReadIsADraw : Obligations.EarlyReadIsADraw := by
  constructor
  · intro s moves script early
    refine ⟨_, step_cons script, ?_, rfl, rfl, rfl⟩
    exact congrArg (fun w => s.outputs ++ [.fp16 w]) (if_neg (Nat.not_le.mpr early))
  · intro s moves script early
    refine ⟨_, step_cons script, ?_, rfl, rfl, rfl⟩
    exact congrArg (fun w => s.outputs ++ [.fp64 w]) (if_neg (Nat.not_le.mpr early))

/-- Settles O60: a drive writes its own block's ports, a hold refreshes both outputs, and a settled read sees the level. -/
theorem driveHoldAndReadFrames : Obligations.DriveHoldAndReadFrames := by
  refine ⟨?driveEnc, ?driveDec, ?hold, ?readEnc, ?readDec⟩
  case driveEnc =>
    intro s a moves script
    exact ⟨_, step_cons script, rfl, rfl, rfl, rfl, rfl⟩
  case driveDec =>
    intro s h moves script
    exact ⟨_, step_cons script, rfl, rfl, rfl, rfl, rfl⟩
  case hold =>
    intro s d moves script
    obtain ⟨enc, dec⟩ := portsAgree_hold { s with script := moves } d
    exact ⟨_, step_cons script, rfl, rfl, rfl, rfl, enc, dec, fun agree settled => hold_fp16Out_of_settled agree settled d,
      fun agree settled => hold_fp64Out_of_settled agree settled d, rfl, rfl, rfl⟩
  case readEnc =>
    intro s moves script settled
    refine ⟨_, step_cons script, ?_, rfl, rfl, rfl, rfl⟩
    exact congrArg (fun w => s.outputs ++ [.fp16 w]) (if_pos settled)
  case readDec =>
    intro s moves script settled
    refine ⟨_, step_cons script, ?_, rfl, rfl, rfl, rfl⟩
    exact congrArg (fun w => s.outputs ++ [.fp64 w]) (if_pos settled)

/-! ### Two and three moves in a row -/

theorem run_two_steps {s t u : State} (first : step s = .next t) (second : step t = .next u) :
    Sys2Proof.core.run 2 s = .next u := by
  rw [run_succ_of_step first, run_succ_of_step second]
  rfl

theorem run_three_steps {s t u v : State} (first : step s = .next t) (second : step t = .next u)
    (third : step u = .next v) : Sys2Proof.core.run 3 s = .next v := by
  rw [run_succ_of_step first, run_two_steps second third]

section driveAndRead
variable {s : State} {a : Fp64} {h : Fp16} {d : Nat} {moves : List HostMove}

theorem run_driveFp64In_read (script : s.script = .driveFp64In a :: .readFp16Out :: moves) :
    ∃ t : State, Sys2Proof.core.run 2 s = .next t ∧ t.script = moves ∧
      t.outputs = s.outputs ++ [.fp16 (s.driveFp64In a).fp16OutSeen] := by
  refine ⟨_, run_two_steps (step_cons script) (step_cons (m := .readFp16Out) rfl), ?_, ?_⟩
  · rfl
  · rfl

theorem run_driveFp16In_read (script : s.script = .driveFp16In h :: .readFp64Out :: moves) :
    ∃ t : State, Sys2Proof.core.run 2 s = .next t ∧ t.script = moves ∧
      t.outputs = s.outputs ++ [.fp64 (s.driveFp16In h).fp64OutSeen] := by
  refine ⟨_, run_two_steps (step_cons script) (step_cons (m := .readFp64Out) rfl), ?_, ?_⟩
  · rfl
  · rfl

theorem run_driveFp64In_hold_read (script : s.script = .driveFp64In a :: .hold d :: .readFp16Out :: moves) :
    ∃ t : State, Sys2Proof.core.run 3 s = .next t ∧ t.script = moves ∧
      t.outputs = s.outputs ++ [.fp16 ((s.driveFp64In a).hold d).fp16OutSeen] := by
  refine ⟨_, run_three_steps (step_cons script) (step_cons (m := .hold d) rfl)
    (step_cons (m := .readFp16Out) rfl), ?_, ?_⟩
  · rfl
  · rfl

theorem run_driveFp16In_hold_read (script : s.script = .driveFp16In h :: .hold d :: .readFp64Out :: moves) :
    ∃ t : State, Sys2Proof.core.run 3 s = .next t ∧ t.script = moves ∧
      t.outputs = s.outputs ++ [.fp64 ((s.driveFp16In h).hold d).fp64OutSeen] := by
  refine ⟨_, run_three_steps (step_cons script) (step_cons (m := .hold d) rfl)
    (step_cons (m := .readFp64Out) rfl), ?_, ?_⟩
  · rfl
  · rfl

end driveAndRead

/-- Settles O59: a new pattern has been held for the hold alone, and the draw read counts on from the state's own. -/
theorem newPatternRestartsTheSteadyTime : Obligations.NewPatternRestartsTheSteadyTime := by
  refine ⟨?encAtOnce, ?encHeld, ?encSame, ?decAtOnce, ?decHeld, ?decSame⟩
  case encAtOnce =>
    intro s a moves script new pos
    obtain ⟨t, run, rest, read⟩ := run_driveFp64In_read script
    exact ⟨t, s.draws + 1, run, Nat.le_add_right _ _, by rw [read, fp16OutSeen_drive_of_new new pos], rest⟩
  case encHeld =>
    intro s a d moves script new short
    obtain ⟨t, run, rest, read⟩ := run_driveFp64In_hold_read script
    exact ⟨t, s.draws + 3, run, Nat.le_add_right _ _, by rw [read, fp16OutSeen_hold_of_new new short], rest⟩
  case encSame =>
    rintro s a moves script rfl settled
    obtain ⟨t, run, rest, read⟩ := run_driveFp64In_read script
    exact ⟨t, run, by rw [read, fp16OutSeen_drive_same settled], rest⟩
  case decAtOnce =>
    intro s h moves script new pos
    obtain ⟨t, run, rest, read⟩ := run_driveFp16In_read script
    exact ⟨t, s.draws + 1, run, Nat.le_add_right _ _, by rw [read, fp64OutSeen_drive_of_new new pos], rest⟩
  case decHeld =>
    intro s h d moves script new short
    obtain ⟨t, run, rest, read⟩ := run_driveFp16In_hold_read script
    exact ⟨t, s.draws + 3, run, Nat.le_add_right _ _, by rw [read, fp64OutSeen_hold_of_new new short], rest⟩
  case decSame =>
    rintro s h moves script rfl settled
    obtain ⟨t, run, rest, read⟩ := run_driveFp16In_read script
    exact ⟨t, run, by rw [read, fp64OutSeen_drive_same settled], rest⟩

/-! ### An application of the other block counts as the hold -/

/-- A step on a stream of one application runs it and uses the stream up. -/
theorem step_apply_encode {s : State} {i : Instr} {moves : List HostMove}
    (script : s.script = .apply (encode s.params.byteOrder i) :: moves) :
    step s = exec i { s with script := moves } := by
  have decoded := decodeOfEncodeGivesTheApplication s.params.byteOrder i []
  rw [List.append_nil] at decoded
  rw [step_apply_of_decode script decoded, if_pos rfl]

/-- After a decode application at least as long as the encode block's `T_PD`, `fp16_out` reads as the conversion of its input. -/
theorem exec_fp16ToFp64_settles_enc (h : Fp16) (s : State) (long : s.params.encTPd ≤ s.params.decTPd) :
    ∃ t, exec (.fp16ToFp64 h) s = .next t ∧ t.script = s.script ∧
      t.outputs = s.outputs ++ [.fp64 (fpDecode s.params.decNanMode h)] ∧
      t.fp16OutSeen = fpEncode s.params.encNanMode s.fp64In := by
  have settled : s.params.encTPd ≤ s.encHeld + s.params.decTPd := long.trans (Nat.le_add_left _ _)
  exact ⟨_, execFp16ToFp64_eq h s, rfl, rfl, (fp16OutSeen_of_settled settled).trans (if_pos settled)⟩

/-- After an encode application at least as long as the decode block's `T_PD`, `fp64_out` reads as the conversion of its input. -/
theorem exec_fp64ToFp16_settles_dec (a : Fp64) (s : State) (long : s.params.decTPd ≤ s.params.encTPd) :
    ∃ t, exec (.fp64ToFp16 a) s = .next t ∧ t.script = s.script ∧
      t.outputs = s.outputs ++ [.fp16 (fpEncode s.params.encNanMode a)] ∧
      t.fp64OutSeen = fpDecode s.params.decNanMode s.fp16In := by
  have settled : s.params.decTPd ≤ s.decHeld + s.params.encTPd := long.trans (Nat.le_add_left _ _)
  exact ⟨_, execFp64ToFp16_eq a s, rfl, rfl, (fp64OutSeen_of_settled settled).trans (if_pos settled)⟩

/-- Settles O48: the hold, or the other block's application, lasts for the driven block's `T_PD`. -/
theorem heldInputReadsAsItsConversion : Obligations.HeldInputReadsAsItsConversion := by
  refine ⟨?encHold, ?decHold, ?encOther, ?decOther⟩
  case encHold =>
    intro s a d moves script long
    obtain ⟨t, run, rest, read⟩ := run_driveFp64In_hold_read script
    have seen : ((s.driveFp64In a).hold d).fp16OutSeen = fpEncode s.params.encNanMode a :=
      fp16OutSeen_hold (long.trans (Nat.le_add_left d _))
    exact ⟨t, run, rest, by rw [read, seen]⟩
  case decHold =>
    intro s h d moves script long
    obtain ⟨t, run, rest, read⟩ := run_driveFp16In_hold_read script
    have seen : ((s.driveFp16In h).hold d).fp64OutSeen = fpDecode s.params.decNanMode h :=
      fp64OutSeen_hold (long.trans (Nat.le_add_left d _))
    exact ⟨t, run, rest, by rw [read, seen]⟩
  case encOther =>
    intro s a h moves script long
    obtain ⟨t, applied, rest, read, seen⟩ :=
      exec_fp16ToFp64_settles_enc h { s.driveFp64In a with script := .readFp16Out :: moves } long
    refine ⟨_, run_three_steps (step_cons script) ((step_apply_encode rfl).trans applied) (step_cons rest), rfl, ?_⟩
    change t.outputs ++ [.fp16 t.fp16OutSeen] = _
    rw [read, seen, List.append_assoc]
    rfl
  case decOther =>
    intro s h a moves script long
    obtain ⟨t, applied, rest, read, seen⟩ :=
      exec_fp64ToFp16_settles_dec a { s.driveFp16In h with script := .readFp64Out :: moves } long
    refine ⟨_, run_three_steps (step_cons script) ((step_apply_encode rfl).trans applied) (step_cons rest), rfl, ?_⟩
    change t.outputs ++ [.fp64 t.fp64OutSeen] = _
    rw [read, seen, List.append_assoc]
    rfl

end Sys2Proof.Machine
end

section
/-! PROOF. Encode's word, as the sign over fifteen bits that the other fields give: the NaNs (40_fp64_to_fp16.md section 2), the
ends of the exponent range, symmetry (section 3), and the fixed-width narrowing datapath. -/

namespace Sys2Proof.Machine

/-! ### Words in port widths -/

/-- Concatenation as a sum: the low part fits below the high one. -/
theorem toNat_append_eq_add {n m : Nat} (x : BitVec n) (y : BitVec m) : (x ++ y).toNat = x.toNat * 2 ^ m + y.toNat := by
  rw [BitVec.toNat_append, shiftLeft_or_eq_add y.isLt]

theorem sign64_eq_extractLsb' (a : Fp64) : (a.extractLsb' 63 1).toNat = sign64 a := by
  have slice_fits : a.toNat >>> 63 < 2 ^ 1 := Nat.lt_succ_of_le (sign64_le_one a)
  rw [BitVec.extractLsb'_toNat, Nat.mod_eq_of_lt slice_fits, sign64]

theorem exponent64_eq_extractLsb' (a : Fp64) : (a.extractLsb' 52 11).toNat = exponent64 a := by
  rw [BitVec.extractLsb'_toNat, exponent64]

theorem fraction64_eq_extractLsb' (a : Fp64) : (a.extractLsb' 0 52).toNat = fraction64 a := by
  rw [BitVec.extractLsb'_toNat, Nat.shiftRight_zero, fraction64]

/-- `s << 15 | mag` is the sign bit over fifteen magnitude bits. -/
theorem ofNat_pack_eq_append (a : Fp64) {mag : Nat} (h : mag < 2 ^ 15) :
    BitVec.ofNat 16 ((sign64 a <<< 15) ||| mag) = a.extractLsb' 63 1 ++ BitVec.ofNat 15 mag := by
  apply BitVec.eq_of_toNat_eq
  rw [toNat_ofNat_pack (sign64_le_one a) h, toNat_append_eq_add, sign64_eq_extractLsb', BitVec.toNat_ofNat,
    Nat.mod_eq_of_lt h, Nat.mul_comm]

/-- The quiet bit set over a ten-bit payload whose own top bit is dropped. -/
theorem or_quietBit {p : Nat} (h : p < 1024) : p ||| 0x200 = 0x200 + p % 512 := by
  have low (q : Nat) (hq : q < 512) : 0x200 ||| q = 0x200 + q := (Nat.two_pow_add_eq_or_of_lt (i := 9) hq 1).symm
  rw [Nat.or_comm]
  rcases lt_or_ge p 512 with small | large
  · rw [low p small, Nat.mod_eq_of_lt small]
  · obtain ⟨q, rfl⟩ := Nat.exists_eq_add_of_le large
    have hq : q < 512 := by omega
    rw [← low q hq, ← Nat.or_assoc, Nat.or_self, low q hq]
    omega

/-! ### The NaN words (R103) -/

section nanWord
variable {a : Fp64} (nan : class64 a = .nan)
include nan

theorem fpEncode_signCanonical_of_nan :
    fpEncode .signCanonical a = if a.getLsbD 63 then 0xFE00#16 else 0x7E00#16 := by
  rw [fpEncode, fpEncodeNat_of_nan _ nan, encNan, ofNat_pack_eq_ite]
  rfl

theorem fpEncode_positiveCanonical_of_nan : fpEncode .positiveCanonical a = 0x7E00#16 := by
  rw [fpEncode, fpEncodeNat_of_nan _ nan]
  rfl

/-- The sign, exponent 31, the quiet bit and the payload's nine top bits below it. -/
theorem fpEncode_payloadQuiet_toNat_of_nan : (fpEncode .payloadQuiet a).toNat =
    2 ^ 15 * sign64 a + (31 * 2 ^ 10 + (0x200 + fraction64 a / 2 ^ 42 % 512)) := by
  have payload_lt : fraction64 a / 2 ^ 42 < 1024 := Nat.div_lt_of_lt_mul (fraction64_lt a)
  have quiet_lt : 0x200 + fraction64 a / 2 ^ 42 % 512 < 2 ^ 10 := by omega
  have low : 0x7C00 ||| (0x200 + fraction64 a / 2 ^ 42 % 512) = 31 * 2 ^ 10 + (0x200 + fraction64 a / 2 ^ 42 % 512) :=
    shiftLeft_or_eq_add (a := 31) quiet_lt
  rw [fpEncode, fpEncodeNat_of_nan _ nan, encNan, Nat.shiftRight_eq_div_pow, Nat.or_assoc, Nat.or_assoc,
    Nat.or_comm 0x200, or_quietBit payload_lt, low, toNat_ofNat_pack (sign64_le_one a) (by omega)]

theorem fpEncode_payloadQuiet_of_nan :
    fpEncode .payloadQuiet a = a.extractLsb' 63 1 ++ 0x1F#5 ++ 1#1 ++ a.extractLsb' 42 9 := by
  apply BitVec.eq_of_toNat_eq
  rw [fpEncode_payloadQuiet_toNat_of_nan nan, toNat_append_eq_add, toNat_append_eq_add, toNat_append_eq_add,
    sign64_eq_extractLsb', BitVec.extractLsb'_toNat, Nat.shiftRight_eq_div_pow, fraction64]
  change _ = ((sign64 a * 2 ^ 5 + 31) * 2 ^ 1 + 1) * 2 ^ 9 + _
  omega

/-- In every mode the exponent field is 31 and the quiet bit leads the mantissa. -/
theorem fpEncode_toNat_of_nan (mode : EncNanMode) :
    ∃ s m, 0x200 ≤ m ∧ m < 1024 ∧ (fpEncode mode a).toNat = 2 ^ 15 * s + (31 * 2 ^ 10 + m) := by
  cases mode with
  | signCanonical =>
    rw [fpEncode_signCanonical_of_nan nan]
    split
    · exact ⟨1, 0x200, by decide, by decide, rfl⟩
    · exact ⟨0, 0x200, by decide, by decide, rfl⟩
  | positiveCanonical =>
    rw [fpEncode_positiveCanonical_of_nan nan]
    exact ⟨0, 0x200, by decide, by decide, rfl⟩
  | payloadQuiet =>
    exact ⟨_, _, Nat.le_add_right _ _, by omega, fpEncode_payloadQuiet_toNat_of_nan nan⟩

theorem quietNan16_fpEncode (mode : EncNanMode) : quietNan16 (fpEncode mode a) = true := by
  obtain ⟨s, m, quiet, hm, word⟩ := fpEncode_toNat_of_nan nan mode
  have exponent := exponent16_of_toNat word (by decide) hm
  have mantissa := mantissa16_of_toNat word hm
  have is_nan : class16 (fpEncode mode a) = .nan := (class16_eq_nan_iff _).mpr ⟨exponent, by omega⟩
  have bit9 : (fpEncode mode a).getLsbD 9 = true := by
    rw [BitVec.getLsbD, Nat.testBit_eq_decide_div_mod_eq, word, decide_eq_true_iff]
    omega
  simp [quietNan16, is_nan, bit9]

end nanWord

/-- Settles O12. -/
theorem encodeOfNaNFollowsTheMode : Obligations.EncodeOfNaNFollowsTheMode := by
  intro a s hE hF
  have nan := (class64_eq_nan_iff a).mpr ⟨hE, hF⟩
  obtain ⟨t, run, out, read⟩ := exec_fp64ToFp16_next a s
  refine ⟨t, run, ?_, read⟩
  rw [out]
  cases s.params.encNanMode with
  | signCanonical => exact fpEncode_signCanonical_of_nan nan
  | positiveCanonical => exact fpEncode_positiveCanonical_of_nan nan
  | payloadQuiet => exact fpEncode_payloadQuiet_of_nan nan

/-! ### The ends of the exponent range -/

/-- Settles O13: from `ue = 16` on the magnitude is infinity's. -/
theorem encodeOfLargeExponentIsInfinity : Obligations.EncodeOfLargeExponentIsInfinity := by
  intro a s lo hi
  obtain ⟨t, run, out, read⟩ := exec_fp64ToFp16_next a s
  refine ⟨t, run, ?_, read⟩
  rw [out, fpEncode, fpEncodeNat_of_finite _ hi (by omega), encMagnitude_of_large _ lo, ofNat_pack_eq_ite]
  rfl

/-- Less than half a quantum rounds to zero. -/
theorem rneShift_eq_zero {M k : Nat} (h : M < 2 ^ (k - 1)) : rneShift M k = 0 := by
  have below : M < 2 ^ k := h.trans_le (Nat.pow_le_pow_right (by decide) (Nat.sub_le k 1))
  rw [rneShift_eq, Nat.mod_eq_of_lt below, Nat.div_eq_of_lt below, if_neg (by omega)]

/-- Below `ue = −25` every magnitude rounds to zero, binary64 subnormals included. -/
theorem encMagnitude_of_tiny {E F : Nat} (hF : F < 2 ^ 52) (hi : E ≤ 997) :
    encMagnitude (significand64 E F) (unbiased64 E) = 0 := by
  have far : 53 ≤ subnormalShift E - 1 := by
    rw [subnormalShift]
    split <;> omega
  rw [encMagnitude_of_subnormal _ (by omega)]
  exact rneShift_eq_zero ((significand64_lt hF).trans_le (Nat.pow_le_pow_right (by decide) far))

theorem class64_eq_subnormal_iff (a : Fp64) : class64 a = .subnormal ↔ exponent64 a = 0 ∧ fraction64 a ≠ 0 := by
  simp only [class64]
  split_ifs <;> simp_all

/-- Settles O25. -/
theorem binary64SubnormalsGiveSignedZero : Obligations.Binary64SubnormalsGiveSignedZero := by
  intro a s subnormal
  obtain ⟨hE, hF⟩ := (class64_eq_subnormal_iff a).mp subnormal
  obtain ⟨t, run, out, read⟩ := exec_fp64ToFp16_next a s
  refine ⟨t, run, ?_, read⟩
  rw [out, fpEncode, fpEncodeNat_of_finite _ (by omega) (by simp [hF]), encMagnitude_of_tiny (fraction64_lt a) (by omega),
    ofNat_pack_eq_ite]
  rfl

/-! ### The fifteen bits below the sign -/

/-- The bits of the result below its sign, a function of the exponent and fraction fields alone. -/
def encLowBits (mode : EncNanMode) (E F : Nat) : Nat :=
  if E = 2047 then (if F = 0 then 0x7C00 else encNan mode 0 F)
  else encMagnitude (significand64 E F) (unbiased64 E)

theorem encLowBits_of_finite (mode : EncNanMode) {E : Nat} (F : Nat) (hE : E ≤ 2046) :
    encLowBits mode E F = encMagnitude (significand64 E F) (unbiased64 E) := if_neg (by omega)

theorem encLowBits_of_nan (mode : EncNanMode) {a : Fp64} (nan : class64 a = .nan) :
    encLowBits mode (exponent64 a) (fraction64 a) = encNan mode 0 (fraction64 a) := by
  obtain ⟨hE, hF⟩ := (class64_eq_nan_iff a).mp nan
  rw [encLowBits, if_pos hE, if_neg hF]

theorem encLowBits_infinity (mode : EncNanMode) : encLowBits mode 2047 0 = 0x7C00 := rfl

theorem encNan_lt (mode : EncNanMode) {F : Nat} (hF : F < 2 ^ 52) : encNan mode 0 F < 2 ^ 15 := by
  cases mode with
  | signCanonical => exact (by decide : 0x7E00 < 2 ^ 15)
  | positiveCanonical => exact (by decide : 0x7E00 < 2 ^ 15)
  | payloadQuiet =>
    obtain ⟨mag, hmag, word⟩ := encNan_eq_pack 0 hF (mode := .payloadQuiet) (by decide)
    rwa [word, Nat.zero_shiftLeft, Nat.zero_or]

theorem encLowBits_lt (mode : EncNanMode) {E F : Nat} (hF : F < 2 ^ 52) : encLowBits mode E F < 2 ^ 15 := by
  rw [encLowBits]
  split_ifs
  · decide
  · exact encNan_lt mode hF
  · exact (encMagnitude_le hF).trans_lt (by decide)

/-- Encode's word, but for a NaN in mode POSITIVE_CANONICAL: the input's sign bit over the fifteen bits. -/
theorem fpEncode_eq_append {mode : EncNanMode} {a : Fp64} (h : class64 a = .nan → mode ≠ .positiveCanonical) :
    fpEncode mode a = a.extractLsb' 63 1 ++ BitVec.ofNat 15 (encLowBits mode (exponent64 a) (fraction64 a)) := by
  rw [← ofNat_pack_eq_append a (encLowBits_lt mode (fraction64_lt a)), fpEncode]
  congr 1
  by_cases hE : exponent64 a = 2047
  · by_cases hF : fraction64 a = 0
    · rw [fpEncodeNat_of_infinity mode hE hF, hE, hF, encLowBits_infinity]
    · have nan := (class64_eq_nan_iff a).mpr ⟨hE, hF⟩
      rw [fpEncodeNat_of_nan mode nan, encLowBits_of_nan mode nan]
      cases mode with
      | signCanonical => rw [encNan, encNan, Nat.zero_shiftLeft, Nat.zero_or]
      | positiveCanonical => exact absurd rfl (h nan)
      | payloadQuiet => simp only [encNan, Nat.zero_shiftLeft, Nat.zero_or, Nat.or_assoc]
  · have finite : exponent64 a ≤ 2046 := by
      have := exponent64_lt a
      omega
    rw [encLowBits_of_finite mode _ finite]
    by_cases zero : exponent64 a = 0 ∧ fraction64 a = 0
    · rw [fpEncodeNat_of_zero mode zero.1 zero.2, encMagnitude_of_tiny (fraction64_lt a) (by omega)]
    · exact fpEncodeNat_of_finite mode finite zero

/-- The word of an input that is not a NaN, as a number: the magnitude bits are infinity's at most. -/
theorem fpEncode_toNat_of_not_nan (mode : EncNanMode) {a : Fp64} (not_nan : class64 a ≠ .nan) :
    (fpEncode mode a).toNat = 2 ^ 15 * sign64 a + encLowBits mode (exponent64 a) (fraction64 a) ∧
      encLowBits mode (exponent64 a) (fraction64 a) ≤ 0x7C00 := by
  have low_lt := encLowBits_lt mode (E := exponent64 a) (fraction64_lt a)
  constructor
  · rw [fpEncode_eq_append fun nan => absurd nan not_nan, toNat_append_eq_add, sign64_eq_extractLsb', BitVec.toNat_ofNat,
      Nat.mod_eq_of_lt low_lt, Nat.mul_comm]
  · have := mt (class64_eq_nan_iff a).mpr not_nan
    rw [encLowBits]
    split_ifs
    · exact le_rfl
    · exact absurd ⟨‹_›, ‹_›⟩ this
    · exact encMagnitude_le (fraction64_lt a)

/-- Encode answers a NaN for a NaN only. -/
theorem class16_fpEncode_eq_nan_iff (mode : EncNanMode) (a : Fp64) : class16 (fpEncode mode a) = .nan ↔ class64 a = .nan := by
  by_cases nan : class64 a = .nan
  · have quiet := quietNan16_fpEncode nan mode
    simp only [quietNan16, Bool.and_eq_true, beq_iff_eq] at quiet
    exact iff_of_true quiet.1 nan
  · refine iff_of_false (fun out => ?_) nan
    obtain ⟨word, le⟩ := fpEncode_toNat_of_not_nan mode nan
    obtain ⟨exponent, mantissa⟩ := (class16_eq_nan_iff _).mp out
    have fields := toNat_eq_fields16 (fpEncode mode a)
    have := mantissa16_lt (fpEncode mode a)
    omega

/-! ### Symmetry -/

theorem exponent64_flipSign (a : Fp64) : exponent64 (a ^^^ 0x8000000000000000#64) = exponent64 a := by
  rw [← exponent64_eq_extractLsb', BitVec.extractLsb'_xor, ← exponent64_eq_extractLsb']
  exact congrArg BitVec.toNat (BitVec.xor_zero)

theorem fraction64_flipSign (a : Fp64) : fraction64 (a ^^^ 0x8000000000000000#64) = fraction64 a := by
  rw [← fraction64_eq_extractLsb', BitVec.extractLsb'_xor, ← fraction64_eq_extractLsb']
  exact congrArg BitVec.toNat (BitVec.xor_zero)

/-- Settles O26: the fifteen low bits do not see the sign. -/
theorem encodeCommutesWithNegation : Obligations.EncodeCommutesWithNegation := by
  intro mode a keepsSign
  have same_class : class64 (a ^^^ 0x8000000000000000#64) = class64 a := by
    simp only [class64, exponent64_flipSign, fraction64_flipSign]
  have flip : (0x8000#16 : Fp16) = (0x8000000000000000#64).extractLsb' 63 1 ++ 0#15 := by decide
  rw [fpEncode_eq_append keepsSign, fpEncode_eq_append (by rwa [same_class]), exponent64_flipSign, fraction64_flipSign,
    flip, BitVec.xor_append, BitVec.extractLsb'_xor, BitVec.xor_zero]

/-! ### Guard and sticky bits (R118) -/

/-- The remainder of a shift by `k` is the guard bit over the bits that the sticky bit gathers. -/
theorem mod_two_pow_eq_guard_add_sticky (M : Nat) {k : Nat} (hk : 1 ≤ k) :
    M % 2 ^ k = M % 2 ^ (k - 1) + 2 ^ (k - 1) * (M.testBit (k - 1)).toNat := by
  obtain ⟨j, rfl⟩ := Nat.exists_eq_add_of_le' hk
  rw [Nat.add_sub_cancel, Nat.pow_succ, Nat.mod_mul, Nat.toNat_testBit]

/-- Settles O19: the guard bit says that the remainder reaches the half, the sticky bit that it goes beyond. -/
theorem guardAndStickyRoundTheSame : Obligations.GuardAndStickyRoundTheSame := by
  intro M k hk
  have remainder := mod_two_pow_eq_guard_add_sticky M (Nat.one_le_of_lt hk)
  have sticky_lt : M % 2 ^ (k - 1) < 2 ^ (k - 1) := Nat.mod_lt _ (Nat.two_pow_pos _)
  simp only [guardStickyShift, rneShift]
  cases guard : M.testBit (k - 1) with
  | false =>
    rw [guard, Bool.toNat_false, Nat.mul_zero, Nat.add_zero] at remainder
    rw [if_neg (by simp), if_neg (by omega)]
  | true =>
    rw [guard, Bool.toNat_true, Nat.mul_one] at remainder
    refine if_congr ?_ rfl rfl
    simp only [true_and]
    omega

/-- The rounding stage rounds as RNE_SHIFT does, and nothing leaves its 53 bits. -/
theorem roundStage_toNat (M : BitVec 53) {k : Nat} (hk : 2 ≤ k) : (roundStage M k).toNat = rneShift M.toNat k := by
  have q_lt : M.toNat >>> k < 2 ^ 52 := by
    rw [Nat.shiftRight_eq_div_pow]
    refine Nat.div_lt_of_lt_mul (M.isLt.trans_le ?_)
    calc 2 ^ 53 = 2 ^ 1 * 2 ^ 52 := by norm_num
      _ ≤ 2 ^ k * 2 ^ 52 := by gcongr; exacts [one_le_two, Nat.one_le_of_lt hk]
  have sticky : (M.setWidth (k - 1) != 0) = true ↔ M.toNat % 2 ^ (k - 1) ≠ 0 := by
    rw [bne_iff_ne, ne_eq, ← BitVec.toNat_inj, BitVec.toNat_setWidth]
    rfl
  have lsb : (M >>> k).getLsbD 0 = true ↔ M.toNat >>> k % 2 = 1 := by
    rw [BitVec.getLsbD, BitVec.toNat_ushiftRight, Nat.testBit_zero, decide_eq_true_iff]
  have guard : M.getLsbD (k - 1) = M.toNat.testBit (k - 1) := rfl
  rw [← guardAndStickyRoundTheSame M.toNat k hk]
  simp only [roundStage, guardStickyShift, Bool.and_eq_true, Bool.or_eq_true, sticky, lsb, guard]
  split
  · rw [BitVec.toNat_add, BitVec.toNat_ushiftRight, Nat.mod_eq_of_lt]
    · rfl
    · change M.toNat >>> k + 1 < 2 ^ 53
      omega
  · rw [BitVec.toNat_ushiftRight]

/-! ### The narrowing datapath -/

theorem toNat_significand (a : Fp64) : (1#1 ++ a.extractLsb' 0 52).toNat = 2 ^ 52 + fraction64 a := by
  rw [toNat_append_eq_add, fraction64_eq_extractLsb']
  rfl

/-- The NaN word of the datapath is R103's. -/
theorem narrowNan_eq_fpEncode (mode : EncNanMode) {a : Fp64} (nan : class64 a = .nan) :
    narrowNan mode (a.extractLsb' 63 1) (a.extractLsb' 0 52) = fpEncode mode a := by
  cases mode with
  | signCanonical =>
    rw [fpEncode_eq_append (by simp), encLowBits_of_nan _ nan]
    rfl
  | positiveCanonical => exact (fpEncode_positiveCanonical_of_nan nan).symm
  | payloadQuiet =>
    rw [fpEncode_eq_append (by simp), encLowBits_of_nan _ nan, narrowNan]
    congr 1
    apply BitVec.eq_of_toNat_eq
    have payload_lt : fraction64 a >>> 42 < 2 ^ 10 := by
      rw [Nat.shiftRight_eq_div_pow]
      exact Nat.div_lt_of_lt_mul (fraction64_lt a)
    rw [BitVec.toNat_or, BitVec.toNat_setWidth, BitVec.extractLsb'_toNat, fraction64_eq_extractLsb', BitVec.toNat_ofNat,
      BitVec.toNat_ofNat, Nat.mod_eq_of_lt payload_lt, Nat.mod_eq_of_lt (encNan_lt _ (fraction64_lt a)),
      Nat.mod_eq_of_lt (payload_lt.trans (by decide)), encNan]
    rfl

/-- The normal range's sum of exponent field and mantissa, in 15 bits. -/
theorem ofNat_normal_magnitude {E : BitVec 11} {q : BitVec 53} (lo : 1009 ≤ E.toNat) (hi : E.toNat ≤ 1038)
    (hq : 1024 ≤ q.toNat) (hq' : q.toNat ≤ 2048) :
    ((E - 1008#11).setWidth 15 <<< 10) + (q.setWidth 15 - 1024#15) =
      BitVec.ofNat 15 ((E.toNat - 1008) * 2 ^ 10 + (q.toNat - 1024)) := by
  apply BitVec.eq_of_toNat_eq
  simp only [BitVec.toNat_add, BitVec.toNat_shiftLeft, BitVec.toNat_setWidth, BitVec.toNat_sub, BitVec.toNat_ofNat,
    Nat.shiftLeft_eq]
  omega

/-- Settles O20: the datapath's ranges of `E` are those of the magnitude bits, and its rounding stage is RNE_SHIFT. -/
theorem narrowingDatapathIsEncode : Obligations.NarrowingDatapathIsEncode := by
  intro mode a
  have hF := fraction64_lt a
  have hE := exponent64_lt a
  have exponent := exponent64_eq_extractLsb' a
  simp only [narrowDatapath, BitVec.le_def, ← BitVec.toNat_inj, exponent64_eq_extractLsb', fraction64_eq_extractLsb',
    BitVec.toNat_ofNat, Nat.reducePow, Nat.reduceMod]
  rw [BitVec.toNat_inj]
  split_ifs with special infinity large normal subnormal
  case neg => exact narrowNan_eq_fpEncode mode ((class64_eq_nan_iff a).mpr ⟨special, infinity⟩)
  all_goals
    rw [fpEncode_eq_append fun nan => by have := (class64_eq_nan_iff a).mp nan; omega]
    congr 1
  · rw [special, infinity, encLowBits_infinity]
  · rw [encLowBits_of_finite mode _ (by omega), encMagnitude_of_large _ large]
  · have stage := roundStage_toNat (1#1 ++ a.extractLsb' 0 52) (k := 42) (by decide)
    rw [toNat_significand] at stage
    have bounds := rneShift_42_bounds (M := 2 ^ 52 + fraction64 a) (by omega) (by omega)
    rw [encLowBits_of_finite mode _ (by omega), encMagnitude_of_normal _ normal (by omega), ← stage, ← exponent]
    exact ofNat_normal_magnitude (by omega) (by omega) (by omega) (by omega)
  · have shift : subnormalShift (exponent64 a) = 1051 - exponent64 a := if_neg (by omega)
    apply BitVec.eq_of_toNat_eq
    rw [encLowBits_of_finite mode _ (by omega), encMagnitude_of_subnormal _ (by omega), shift,
      significand64_of_ne_zero _ (by omega), BitVec.toNat_setWidth, BitVec.toNat_ofNat, roundStage_toNat _ (by omega),
      toNat_significand]
  · rw [encLowBits_of_finite mode _ (by omega), encMagnitude_of_tiny hF (by omega)]

end Sys2Proof.Machine
end

section
/-! PROOF. Decode's word (41_fp16_to_fp64.md section 2): its fields by the class of the input, its range, the NaNs in both
directions, and the fixed-width widening datapath. -/

namespace Sys2Proof.Machine

/-! ### Finite patterns (R143, R144) -/

/-- Settles O31: `p` is `msb_index`, and the leading one is taken off the shifted mantissa. -/
theorem decodeNormalisesSubnormals : Obligations.DecodeNormalisesSubnormals := by
  intro h s he hm
  have hs := sign16_le_one h
  obtain ⟨index_le, normalised⟩ := two_pow_add_normalised hm (mantissa16_lt h)
  obtain ⟨t, run, out, read⟩ := exec_fp16ToFp64_next h s
  refine ⟨msbIndex (mantissa16 h), t, index_le, Nat.log2_self_le hm, Nat.lt_log2_self, run, ?_, read⟩
  have leading : 2 ^ msbIndex (mantissa16 h) * 2 ^ (52 - msbIndex (mantissa16 h)) = 2 ^ 52 := by
    rw [← pow_add]
    congr 1
    omega
  rw [out, fpDecode_of_subnormal _ he hm, pack64_toNat hs (by omega) (Nat.mod_lt _ (by decide)), Nat.sub_mul, leading,
    ← normalised, Nat.add_sub_cancel_left]

/-- Settles O32. -/
theorem decodeRebiasesNormals : Obligations.DecodeRebiasesNormals := by
  intro h s lo hi
  have hm := mantissa16_lt h
  obtain ⟨t, run, out, read⟩ := exec_fp16ToFp64_next h s
  refine ⟨t, run, ?_, read⟩
  rw [out, fpDecode_of_normal _ lo hi, pack64_toNat (sign16_le_one h) (by omega) (by omega), Nat.mul_comm (mantissa16 h)]

/-! ### The NaN words (R146) -/

section nanWord
variable {h : Fp16} (he : exponent16 h = 31) (hm : mantissa16 h ≠ 0)
include he hm

theorem fpDecode_payloadQuiet_of_nan :
    fpDecode .payloadQuiet h = pack64 (sign16 h) 2047 ((0x200 + mantissa16 h % 512) * 2 ^ 42) := by
  rw [fpDecode_of_nan _ he hm, decNan, or_quietBit (mantissa16_lt h), Nat.shiftLeft_eq _ 42, pack64]

theorem fpDecode_signCanonical_of_nan : fpDecode .signCanonical h = pack64 (sign16 h) 2047 (0x200 * 2 ^ 42) := by
  rw [fpDecode_of_nan _ he hm, decNan, pack64, Nat.or_assoc]
  rfl

theorem fpDecode_positiveCanonical_of_nan : fpDecode .positiveCanonical h = 0x7FF8000000000000#64 :=
  fpDecode_of_nan _ he hm

/-- In every mode the exponent field is 2047 and the quiet bit leads the ten fraction bits that are not wired to 0. -/
theorem fpDecode_eq_pack64_of_nan (mode : DecNanMode) :
    ∃ s f, s ≤ 1 ∧ 0x200 ≤ f ∧ f < 1024 ∧ fpDecode mode h = pack64 s 2047 (f * 2 ^ 42) := by
  cases mode with
  | payloadQuiet =>
    exact ⟨_, _, sign16_le_one h, Nat.le_add_right _ _, by omega, fpDecode_payloadQuiet_of_nan he hm⟩
  | signCanonical => exact ⟨_, _, sign16_le_one h, le_rfl, by decide, fpDecode_signCanonical_of_nan he hm⟩
  | positiveCanonical => exact ⟨0, 0x200, by decide, le_rfl, by decide, fpDecode_positiveCanonical_of_nan he hm⟩

theorem quietNan64_fpDecode (mode : DecNanMode) : quietNan64 (fpDecode mode h) = true := by
  obtain ⟨s, f, hs, quiet, hf, word⟩ := fpDecode_eq_pack64_of_nan he hm mode
  have is_nan : class64 (fpDecode mode h) = .nan :=
    (class64_fpDecode_eq_nan_iff mode h).mpr ((class16_eq_nan_iff h).mpr ⟨he, hm⟩)
  have bit51 : (fpDecode mode h).getLsbD 51 = true := by
    rw [word, BitVec.getLsbD, Nat.testBit_eq_decide_div_mod_eq, pack64_toNat hs (by decide) (by omega), decide_eq_true_iff]
    omega
  simp [quietNan64, is_nan, bit51]

end nanWord

/-- Settles O34. -/
theorem decodeOfNaNFollowsTheMode : Obligations.DecodeOfNaNFollowsTheMode := by
  intro h s he hm
  have hs := sign16_le_one h
  obtain ⟨t, run, out, read⟩ := exec_fp16ToFp64_next h s
  refine ⟨t, run, ?_, read⟩
  rw [out]
  cases s.params.decNanMode with
  | payloadQuiet =>
    apply BitVec.eq_of_toNat_eq
    rw [fpDecode_payloadQuiet_of_nan he hm, pack64_toNat hs (by decide) (by omega), toNat_append_eq_add,
      toNat_append_eq_add, toNat_append_eq_add, toNat_append_eq_add, ← sign16_eq_extractLsb', BitVec.extractLsb'_toNat,
      Nat.shiftRight_zero, mantissa16]
    change _ = (((sign16 h * 2 ^ 11 + 2047) * 2 ^ 1 + 1) * 2 ^ 9 + _) * 2 ^ 42 + 0
    omega
  | signCanonical =>
    rw [fpDecode_signCanonical_of_nan he hm]
    change _ = if h.getLsbD 15 = true then 0xFFF8000000000000#64 else 0x7FF8000000000000#64
    rw [← decide_sign16_eq_one]
    obtain zero | one := Nat.le_one_iff_eq_zero_or_eq_one.mp hs
    · rw [zero]
      rfl
    · rw [one]
      rfl
  | positiveCanonical => exact fpDecode_positiveCanonical_of_nan he hm

/-- Settles O28: each block's class lemma, and the quiet bit of each NaN word. -/
theorem naNComesOutExactlyWhenNaNGoesIn : Obligations.NaNComesOutExactlyWhenNaNGoesIn := by
  refine ⟨fun mode a => ⟨class16_fpEncode_eq_nan_iff mode a, fun nan => quietNan16_fpEncode nan mode⟩,
    fun mode h => ⟨class64_fpDecode_eq_nan_iff mode h, fun nan => ?_⟩⟩
  obtain ⟨he, hm⟩ := (class16_eq_nan_iff h).mp nan
  exact quietNan64_fpDecode he hm mode

/-! ### The range of the result -/

/-- The shifted mantissa's 42 low bits are 0. -/
theorem normalised_fraction_eq {m : Nat} (hm : m ≠ 0) (lt : m < 1024) :
    (m <<< (52 - msbIndex m)) % 2 ^ 52 = (m <<< (10 - msbIndex m)) % 2 ^ 10 * 2 ^ 42 := by
  have split_shift : 52 - msbIndex m = 10 - msbIndex m + 42 := by
    have := (two_pow_add_normalised hm lt).1
    omega
  rw [split_shift, Nat.shiftLeft_add, Nat.shiftLeft_eq _ 42, ← Nat.mul_mod_mul_right,
    ← pow_add]

/-- Every result is a sign, an exponent field of the range and ten fraction bits over 42 zeros (R147). -/
theorem fpDecode_eq_pack64 (mode : DecNanMode) (h : Fp16) : ∃ s E f, s ≤ 1 ∧ f < 1024 ∧
    ((E = 0 ∧ f = 0) ∨ (999 ≤ E ∧ E ≤ 1038) ∨ E = 2047) ∧ fpDecode mode h = pack64 s E (f * 2 ^ 42) := by
  have hs := sign16_le_one h
  have hm := mantissa16_lt h
  by_cases nan : class16 h = .nan
  · obtain ⟨he, hm0⟩ := (class16_eq_nan_iff h).mp nan
    obtain ⟨s, f, hs', -, hf, word⟩ := fpDecode_eq_pack64_of_nan he hm0 mode
    exact ⟨s, 2047, f, hs', hf, .inr (.inr rfl), word⟩
  obtain ⟨he, hm0⟩ | ⟨he, hm0⟩ | ⟨lo, hi⟩ | ⟨he, hm0⟩ := fields16_of_not_nan nan
  · exact ⟨_, 0, 0, hs, by decide, .inl ⟨rfl, rfl⟩, fpDecode_of_zero mode he hm0⟩
  · have index_le := (two_pow_add_normalised hm0 hm).1
    have word := fpDecode_of_subnormal mode he hm0
    rw [normalised_fraction_eq hm0 hm] at word
    exact ⟨_, _, _, hs, Nat.mod_lt _ (by decide), .inr (.inl (by omega)), word⟩
  · exact ⟨_, _, _, hs, hm, .inr (.inl (by omega)), fpDecode_of_normal mode lo hi⟩
  · exact ⟨_, 2047, 0, hs, by decide, .inr (.inr rfl), fpDecode_of_infinity mode he hm0⟩

/-- Settles O37. -/
theorem decodeOutputRange : Obligations.DecodeOutputRange := by
  intro mode h
  obtain ⟨s, E, f, hs, hf, range, word⟩ := fpDecode_eq_pack64 mode h
  have hE : E < 2048 := by omega
  have hF : f * 2 ^ 42 < 2 ^ 52 := by omega
  rw [word, ne_eq, class64_eq_subnormal_iff, exponent64_pack64 hs hE hF, fraction64_pack64 hs hE hF]
  refine ⟨by omega, by omega, BitVec.eq_of_toNat_eq ?_⟩
  rw [BitVec.extractLsb'_toNat, Nat.shiftRight_zero, pack64_toNat hs hE hF, BitVec.toNat_ofNat]
  omega

/-! ### Round trips -/

/-- Settles O38. -/
theorem encodeOfDecodeIsIdentity : Obligations.EncodeOfDecodeIsIdentity := fun em dm _ => fpEncode_fpDecode em dm

/-- The masked sign bit of a binary16 pattern. -/
theorem and_signBit16 (h : Fp16) : h &&& 0x8000#16 = if h.getLsbD 15 then 0x8000#16 else 0#16 := BitVec.and_twoPow h 15

/-- The masked sign bit of a binary64 pattern. -/
theorem and_signBit64 (a : Fp64) :
    a &&& 0x8000000000000000#64 = if a.getLsbD 63 then 0x8000000000000000#64 else 0#64 := BitVec.and_twoPow a 63

/-- A NaN made quiet, by its fields. -/
theorem toNat_or_quietBit {h : Fp16} (he : exponent16 h = 31) :
    (h ||| 0x0200#16).toNat = 2 ^ 15 * sign16 h + (31 * 2 ^ 10 + (0x200 + mantissa16 h % 512)) := by
  have quiet_lt : 0x200 + mantissa16 h % 512 < 2 ^ 10 := by omega
  have low : (31 <<< 10) ||| (0x200 + mantissa16 h % 512) = 31 * 2 ^ 10 + (0x200 + mantissa16 h % 512) :=
    shiftLeft_or_eq_add quiet_lt
  have low_lt : 31 * 2 ^ 10 + (0x200 + mantissa16 h % 512) < 2 ^ 15 := by omega
  rw [BitVec.toNat_or, toNat_eq_or_fields16 h, he, BitVec.toNat_ofNat, Nat.or_assoc, Nat.or_assoc]
  change _ ||| ((31 <<< 10) ||| (mantissa16 h ||| 0x200)) = _
  rw [or_quietBit (mantissa16_lt h), low, shiftLeft_or_eq_add low_lt, Nat.mul_comm]

/-- Settles O40: the canonical word is one of two for each direction, and the payload survives under the quiet bit. -/
theorem naNRoundTrips : Obligations.NaNRoundTrips := by
  refine ⟨fun h nan => ?_, fun a nan => ?_⟩
  · obtain ⟨he, hm⟩ := (class16_eq_nan_iff h).mp nan
    have out_nan := (class64_fpDecode_eq_nan_iff .payloadQuiet h).mpr nan
    have word := fpDecode_payloadQuiet_of_nan he hm
    have hs := sign16_le_one h
    have quiet_lt : (0x200 + mantissa16 h % 512) * 2 ^ 42 < 2 ^ 52 := by omega
    have sign_kept : sign64 (fpDecode .payloadQuiet h) = sign16 h := by
      rw [word, sign64_pack64 hs (by decide) quiet_lt]
    constructor
    · rw [fpEncode_signCanonical_of_nan out_nan, ← decide_sign64_eq_one, sign_kept, decide_sign16_eq_one, and_signBit16]
      split
      · rfl
      · rfl
    · have payload : fraction64 (fpDecode .payloadQuiet h) / 2 ^ 42 % 512 = mantissa16 h % 512 := by
        rw [word, fraction64_pack64 hs (by decide) quiet_lt]
        omega
      apply BitVec.eq_of_toNat_eq
      rw [fpEncode_payloadQuiet_toNat_of_nan out_nan, sign_kept, payload, toNat_or_quietBit he]
  · rw [fpEncode_signCanonical_of_nan nan, and_signBit64]
    split
    · rfl
    · rfl

/-! ### The widening datapath -/

/-- A set bit with nothing above it is the leading one. -/
theorem log2_of_leading_bit {m p : Nat} (below : m < 2 ^ (p + 1)) (bit : m.testBit p = true) : Nat.log2 m = p := by
  have le : 2 ^ p ≤ m := Nat.ge_two_pow_of_testBit bit
  exact (Nat.log2_eq_iff (Nat.ne_zero_of_lt ((Nat.two_pow_pos p).trans_le le))).mpr ⟨le, below⟩

/-- A clear bit with nothing above it leaves the bits below it. -/
theorem lt_two_pow_of_bit_clear {m p : Nat} (below : m < 2 ^ (p + 1)) (bit : ¬m.testBit p = true) : m < 2 ^ p := by
  have quotient_lt : m / 2 ^ p < 2 := Nat.div_lt_of_lt_mul (by rwa [pow_succ] at below)
  rw [Nat.testBit_eq_decide_div_mod_eq, decide_eq_true_iff, Nat.mod_eq_of_lt quotient_lt] at bit
  exact Nat.lt_of_div_eq_zero (Nat.two_pow_pos p) (Nat.lt_one_iff.mp ((Nat.le_of_lt_succ quotient_lt).lt_of_ne bit))

/-- One line of the priority encoder: bit `p` is the answer if set, and else the lines below are asked. -/
theorem priority_line {m : BitVec 10} {p others : Nat} (below : m.toNat < 2 ^ (p + 1))
    (rest : m.toNat < 2 ^ p → others = msbIndex m.toNat) : (if m.getLsbD p then p else others) = msbIndex m.toNat := by
  split
  case isTrue bit => exact (log2_of_leading_bit below bit).symm
  case isFalse bit => exact rest (lt_two_pow_of_bit_clear below bit)

/-- The priority encoder finds the leading one (R143). -/
theorem leadingOne_eq_msbIndex (m : BitVec 10) (h : m.toNat ≠ 0) : leadingOne m = msbIndex m.toNat := by
  have last (lt : m.toNat < 2 ^ 1) : 0 = msbIndex m.toNat := by
    have one : m.toNat = 1 := by omega
    rw [one]
    rfl
  exact priority_line m.isLt fun lt9 => priority_line lt9 fun lt8 => priority_line lt8 fun lt7 => priority_line lt7
    fun lt6 => priority_line lt6 fun lt5 => priority_line lt5 fun lt4 => priority_line lt4 fun lt3 => priority_line lt3
    fun lt2 => priority_line lt2 last

/-- Sign, exponent and fraction in port widths, over 42 bits wired to 0. -/
theorem append_fields_eq_pack64 (h : Fp16) (E : BitVec 11) (f : BitVec 10) :
    h.extractLsb' 15 1 ++ E ++ f ++ 0#42 = pack64 (sign16 h) E.toNat (f.toNat * 2 ^ 42) := by
  have := f.isLt
  apply BitVec.eq_of_toNat_eq
  rw [pack64_toNat (sign16_le_one h) E.isLt (by omega), toNat_append_eq_add, toNat_append_eq_add, toNat_append_eq_add,
    ← sign16_eq_extractLsb']
  change _ + 0 = _
  omega

theorem append_infinity_eq_pack64 (h : Fp16) : h.extractLsb' 15 1 ++ 2047#11 ++ 0#52 = pack64 (sign16 h) 2047 0 := by
  apply BitVec.eq_of_toNat_eq
  rw [pack64_toNat (sign16_le_one h) (by decide) (by decide), toNat_append_eq_add, toNat_append_eq_add,
    ← sign16_eq_extractLsb']
  change (_ * 2 ^ 11 + 2047) * 2 ^ 52 + 0 = _
  omega

theorem append_zero_eq_pack64 (h : Fp16) : h.extractLsb' 15 1 ++ 0#63 = pack64 (sign16 h) 0 0 := by
  apply BitVec.eq_of_toNat_eq
  rw [pack64_toNat (sign16_le_one h) (by decide) (by decide), toNat_append_eq_add, ← sign16_eq_extractLsb']
  change _ * 2 ^ 63 + 0 = _
  omega

/-- The NaN word of the datapath is R146's. -/
theorem widenNan_eq_fpDecode (mode : DecNanMode) {h : Fp16} (he : exponent16 h = 31) (hm : mantissa16 h ≠ 0) :
    widenNan mode (h.extractLsb' 15 1) (h.extractLsb' 0 10) = fpDecode mode h := by
  cases mode with
  | payloadQuiet =>
    have quiet : (h.extractLsb' 0 10 ||| 0x200#10).toNat = 0x200 + mantissa16 h % 512 := by
      rw [BitVec.toNat_or, ← mantissa16_eq_extractLsb']
      exact or_quietBit (mantissa16_lt h)
    rw [widenNan, append_fields_eq_pack64, quiet, fpDecode_payloadQuiet_of_nan he hm]
    rfl
  | signCanonical =>
    apply BitVec.eq_of_toNat_eq
    rw [widenNan, toNat_append_eq_add, fpDecode_signCanonical_of_nan he hm,
      pack64_toNat (sign16_le_one h) (by decide) (by decide), ← sign16_eq_extractLsb']
    change _ + 0x7FF8000000000000 = _
    omega
  | positiveCanonical => exact (fpDecode_positiveCanonical_of_nan he hm).symm

/-- Settles O21: the datapath's rows are the classes', and its leading-one detector is `msb_index`. -/
theorem wideningDatapathIsDecode : Obligations.WideningDatapathIsDecode := by
  intro mode h
  have e_lt := exponent16_lt h
  have m_lt := mantissa16_lt h
  have exponent := exponent16_eq_extractLsb' h
  have mantissa := mantissa16_eq_extractLsb' h
  simp only [widenDatapath, ← BitVec.toNat_inj (n := 5), ← BitVec.toNat_inj (n := 10), ← exponent, ← mantissa,
    BitVec.toNat_ofNat, Nat.reducePow, Nat.reduceMod]
  split_ifs with special infinity small zero
  · rw [fpDecode_of_infinity mode special infinity]
    exact append_infinity_eq_pack64 h
  · exact widenNan_eq_fpDecode mode special infinity
  · rw [fpDecode_of_zero mode small zero]
    exact append_zero_eq_pack64 h
  · have nonzero : (h.extractLsb' 0 10).toNat ≠ 0 := by rwa [← mantissa]
    have index_le := (two_pow_add_normalised zero m_lt).1
    rw [fpDecode_of_subnormal mode small zero, append_fields_eq_pack64, leadingOne_eq_msbIndex _ nonzero, ← mantissa,
      normalised_fraction_eq zero m_lt, BitVec.toNat_ofNat, BitVec.toNat_shiftLeft, ← mantissa, Nat.mod_eq_of_lt (by omega)]
  · have rebiased : ((h.extractLsb' 10 5).setWidth 11 + 1008#11).toNat = exponent16 h + 1008 := by
      rw [BitVec.toNat_add, BitVec.toNat_setWidth, ← exponent, BitVec.toNat_ofNat]
      omega
    rw [fpDecode_of_normal mode (by omega) (by omega), append_fields_eq_pack64, ← mantissa, rebiased]

end Sys2Proof.Machine
end

section
/-! PROOF. The value a pattern denotes (30_encoding.md R61, R63), for both formats at once: a format has `w` fraction bits, a
greatest finite exponent field, and a scale `2^q` for exponent field 0. Values against classes, and which patterns share one. -/

namespace Sys2Proof.Machine

/-! ### The magnitude that an exponent field and a fraction denote -/

/-- `0.m × 2^1` or `1.m × 2^e`, scaled by `2^(w + q)`: the common shape of the finite rows of R61 and R63. -/
def floatMagnitude (w : ℕ) (q : ℤ) (e m : ℕ) : ℚ :=
  if e = 0 then (m : ℚ) * 2 ^ (1 + q) else ((2 ^ w + m : ℕ) : ℚ) * 2 ^ (e + q)

theorem two_zpow_natCast_add (w : ℕ) (c : ℤ) : (2 : ℚ) ^ (w + c) = 2 ^ w * 2 ^ c := by
  rw [zpow_add₀ two_ne_zero, zpow_natCast]

/-- A power of two moves from the significand to the scale. -/
theorem cast_mul_two_pow_scale (M k : ℕ) (c : ℤ) : ((M * 2 ^ k : ℕ) : ℚ) * 2 ^ c = M * 2 ^ (k + c) := by
  rw [two_zpow_natCast_add]
  push_cast
  ring

section floatMagnitude
variable {w : ℕ} {q : ℤ} {e m : ℕ}

theorem floatMagnitude_zero : floatMagnitude w q 0 m = m * 2 ^ (1 + q) := if_pos rfl

theorem floatMagnitude_of_pos (h : 1 ≤ e) : floatMagnitude w q e m = ((2 ^ w + m : ℕ) : ℚ) * 2 ^ (e + q) :=
  if_neg (Nat.one_le_iff_ne_zero.mp h)

theorem floatMagnitude_nonneg : 0 ≤ floatMagnitude w q e m := by
  rw [floatMagnitude]
  split <;> positivity

/-- A binade begins at `2^(w + e + q)`. -/
theorem le_floatMagnitude (h : 1 ≤ e) : 2 ^ (w + e + q) ≤ floatMagnitude w q e m :=
  calc (2 : ℚ) ^ (w + e + q) = 2 ^ w * 2 ^ (e + q) := by rw [add_assoc, two_zpow_natCast_add]
    _ ≤ ((2 ^ w + m : ℕ) : ℚ) * 2 ^ (e + q) := by gcongr; exact_mod_cast Nat.le_add_right _ _
    _ = floatMagnitude w q e m := (floatMagnitude_of_pos h).symm

/-- A binade ends where the next one begins, exponent field 0 sharing the first one's end. -/
theorem floatMagnitude_lt (hm : m < 2 ^ w) : floatMagnitude w q e m < 2 ^ (w + (e + 1 : ℕ) + q) := by
  rw [add_assoc, two_zpow_natCast_add]
  rcases Nat.eq_zero_or_pos e with rfl | pos
  · rw [floatMagnitude_zero, Nat.zero_add, Nat.cast_one]
    gcongr
    exact_mod_cast hm
  · have half : (2 : ℚ) ^ ((e + 1 : ℕ) + q) = 2 * 2 ^ (e + q) := by
      rw [← zpow_one_add₀ two_ne_zero]
      congr 1
      push_cast
      ring
    rw [floatMagnitude_of_pos pos, half, ← mul_assoc]
    gcongr
    exact_mod_cast (by omega : 2 ^ w + m < 2 ^ w * 2)

theorem floatMagnitude_lt_of_lt {e' m' : ℕ} (hm : m < 2 ^ w) (h : e < e') :
    floatMagnitude w q e m < floatMagnitude w q e' m' :=
  calc floatMagnitude w q e m < 2 ^ (w + (e + 1 : ℕ) + q) := floatMagnitude_lt hm
    _ ≤ 2 ^ (w + e' + q) := zpow_le_zpow_right₀ one_le_two (by omega)
    _ ≤ floatMagnitude w q e' m' := le_floatMagnitude (Nat.one_le_of_lt h)

/-- No two pairs of fields denote one magnitude. -/
theorem floatMagnitude_inj {e' m' : ℕ} (hm : m < 2 ^ w) (hm' : m' < 2 ^ w)
    (h : floatMagnitude w q e m = floatMagnitude w q e' m') : e = e' ∧ m = m' := by
  rcases lt_trichotomy e e' with lt | rfl | gt
  · exact absurd h (floatMagnitude_lt_of_lt hm lt).ne
  · refine ⟨rfl, ?_⟩
    have scale (c : ℤ) : (2 : ℚ) ^ c ≠ 0 := (zpow_pos two_pos c).ne'
    simp only [floatMagnitude] at h
    split at h
    · exact_mod_cast mul_right_cancel₀ (scale _) h
    · have := mul_right_cancel₀ (scale _) h
      norm_cast at this
      omega
  · exact absurd h (floatMagnitude_lt_of_lt hm' gt).ne'

theorem floatMagnitude_eq_zero_iff : floatMagnitude w q e m = 0 ↔ e = 0 ∧ m = 0 := by
  rcases Nat.eq_zero_or_pos e with rfl | pos
  · rw [floatMagnitude_zero, mul_eq_zero, or_iff_left (zpow_pos two_pos _).ne', Nat.cast_eq_zero]
    simp
  · have positive : 0 < floatMagnitude w q e m := (zpow_pos two_pos _).trans_le (le_floatMagnitude pos)
    exact iff_of_false positive.ne' fun h => pos.ne' h.1

/-- The least normal is `2^(w + 1 + q)`. -/
theorem floatMagnitude_lt_normal_iff (hm : m < 2 ^ w) : floatMagnitude w q e m < 2 ^ (w + 1 + q) ↔ e = 0 := by
  rcases Nat.eq_zero_or_pos e with rfl | pos
  · exact iff_of_true (floatMagnitude_lt hm) rfl
  · refine iff_of_false (not_lt.mpr ?_) pos.ne'
    calc (2 : ℚ) ^ (w + 1 + q) ≤ 2 ^ (w + e + q) := zpow_le_zpow_right₀ one_le_two (by omega)
      _ ≤ floatMagnitude w q e m := le_floatMagnitude pos

end floatMagnitude

/-! ### Class and value of a pattern, by its fields -/

/-- The rows of R61's table, and of R63's. -/
def fieldsValue (w : ℕ) (q : ℤ) (top : ℕ) (neg : Bool) (e m : ℕ) : Value :=
  if e ≤ top then .finite neg (floatMagnitude w q e m) else if m = 0 then .infinite neg else .nan

/-- The classes of R61's table, and of R63's. -/
def fieldsClass (top e m : ℕ) : FpClass :=
  if e = 0 ∧ m = 0 then .zero
  else if e = 0 then .subnormal
  else if e ≤ top then .normal
  else if m = 0 then .infinity
  else .nan

theorem value16_eq_fieldsValue (h : Fp16) :
    value16 h = fieldsValue 10 (-25) 30 (h.getLsbD 15) (exponent16 h) (mantissa16 h) := by
  have zero_row (m : ℕ) : (m : ℚ) * 2 ^ (-24 : ℤ) = floatMagnitude 10 (-25) 0 m := by norm_num [floatMagnitude_zero]
  by_cases he : exponent16 h ≤ 30
  · rw [fieldsValue, if_pos he]
    rcases Nat.eq_zero_or_pos (exponent16 h) with zero | pos
    · rw [value16, if_pos zero, zero, decide_sign16_eq_one, zero_row]
    · have scale : (exponent16 h : ℤ) - 15 = (10 : ℕ) + (exponent16 h + -25) := by
        push_cast
        ring
      rw [value16_of_normal pos he, floatMagnitude_of_pos pos, scale, two_zpow_natCast_add]
      congr 1
      push_cast
      ring
  · have nonzero : exponent16 h ≠ 0 := by omega
    simp only [value16, fieldsValue, if_neg he, if_neg nonzero, decide_sign16_eq_one]

/-- The significand and unbiased exponent of R106 give the same magnitude. -/
theorem floatMagnitude_eq_significand64 (E F : ℕ) :
    floatMagnitude 52 (-1075) E F = (significand64 E F : ℚ) * 2 ^ (unbiased64 E - 52) := by
  rw [floatMagnitude, significand64, unbiased64]
  split
  · norm_num
  · congr 2
    ring

theorem value64_eq_fieldsValue (a : Fp64) :
    value64 a = fieldsValue 52 (-1075) 2046 (a.getLsbD 63) (exponent64 a) (fraction64 a) := by
  by_cases hE : exponent64 a ≤ 2046
  · rw [fieldsValue, if_pos hE, value64_of_finite hE, floatMagnitude_eq_significand64]
  · have nonzero : exponent64 a ≠ 0 := by omega
    simp only [value64, fieldsValue, if_neg hE, if_neg nonzero, decide_sign64_eq_one]

theorem class16_eq_fieldsClass (h : Fp16) : class16 h = fieldsClass 30 (exponent16 h) (mantissa16 h) := rfl

theorem class64_eq_fieldsClass (a : Fp64) : class64 a = fieldsClass 2046 (exponent64 a) (fraction64 a) := by
  by_cases special : exponent64 a = 2047
  · simp only [class64, fieldsClass, special]
    by_cases infinity : fraction64 a = 0
    · simp [infinity]
    · simp [infinity]
  · have finite : exponent64 a ≤ 2046 := by
      have := exponent64_lt a
      omega
    simp [class64, fieldsClass, special, finite]

section fields
variable {w : ℕ} {q : ℤ} {top e m : ℕ}

theorem fieldsClass_eq_nan_iff (htop : 1 ≤ top) : fieldsClass top e m = .nan ↔ top < e ∧ m ≠ 0 := by
  rw [fieldsClass]
  split_ifs <;> simp <;> omega

theorem fieldsClass_eq_infinity_iff (htop : 1 ≤ top) : fieldsClass top e m = .infinity ↔ top < e ∧ m = 0 := by
  rw [fieldsClass]
  split_ifs <;> simp <;> omega

theorem fieldsClass_eq_zero_iff : fieldsClass top e m = .zero ↔ e = 0 ∧ m = 0 := by
  rw [fieldsClass]
  split_ifs <;> simp <;> omega

theorem fieldsClass_eq_subnormal_iff : fieldsClass top e m = .subnormal ↔ e = 0 ∧ m ≠ 0 := by
  rw [fieldsClass]
  split_ifs <;> simp <;> omega

theorem fieldsClass_eq_normal_iff : fieldsClass top e m = .normal ↔ 1 ≤ e ∧ e ≤ top := by
  rw [fieldsClass]
  split_ifs <;> simp <;> omega

theorem fieldsValue_eq_nan_iff {neg : Bool} : fieldsValue w q top neg e m = .nan ↔ top < e ∧ m ≠ 0 := by
  rw [fieldsValue]
  split_ifs <;> simp <;> omega

theorem fieldsValue_eq_infinite_iff {neg s : Bool} :
    fieldsValue w q top neg e m = .infinite s ↔ (top < e ∧ m = 0) ∧ s = neg := by
  rw [fieldsValue]
  split_ifs with finite infinity
  · simp [finite.not_gt]
  · simp [not_le.mp finite, infinity, eq_comm]
  · simp [infinity]

theorem fieldsValue_eq_finite_iff {neg s : Bool} {x : ℚ} :
    fieldsValue w q top neg e m = .finite s x ↔ e ≤ top ∧ s = neg ∧ x = floatMagnitude w q e m := by
  rw [fieldsValue]
  split_ifs with finite infinity
  · simp [finite, eq_comm]
  · simp [finite]
  · simp [finite]

/-- Each class is a property of the value, in either format. -/
theorem fieldsClass_agrees (neg : Bool) (htop : 1 ≤ top) (hm : m < 2 ^ w) :
    (fieldsClass top e m = .nan ↔ fieldsValue w q top neg e m = .nan) ∧
    (fieldsClass top e m = .infinity ↔ ∃ s, fieldsValue w q top neg e m = .infinite s) ∧
    (fieldsClass top e m = .zero ↔ ∃ s, fieldsValue w q top neg e m = .finite s 0) ∧
    (fieldsClass top e m = .subnormal ↔ ∃ s x, fieldsValue w q top neg e m = .finite s x ∧ 0 < x ∧ x < 2 ^ (w + 1 + q)) ∧
    (fieldsClass top e m = .normal ↔ ∃ s x, fieldsValue w q top neg e m = .finite s x ∧ 2 ^ (w + 1 + q) ≤ x) := by
  have zero_iff : floatMagnitude w q e m = 0 ↔ e = 0 ∧ m = 0 := floatMagnitude_eq_zero_iff
  have small_iff : floatMagnitude w q e m < 2 ^ (w + 1 + q) ↔ e = 0 := floatMagnitude_lt_normal_iff hm
  have pos_iff : 0 < floatMagnitude w q e m ↔ ¬(e = 0 ∧ m = 0) := by
    rw [floatMagnitude_nonneg.lt_iff_ne', ne_eq, zero_iff]
  simp only [fieldsClass_eq_nan_iff htop, fieldsClass_eq_infinity_iff htop, fieldsClass_eq_zero_iff,
    fieldsClass_eq_subnormal_iff, fieldsClass_eq_normal_iff, fieldsValue_eq_nan_iff, fieldsValue_eq_infinite_iff,
    fieldsValue_eq_finite_iff]
  refine ⟨trivial, ⟨fun h => ⟨neg, h, rfl⟩, fun ⟨_, h, _⟩ => h⟩, ⟨fun h => ?_, ?_⟩, ⟨fun h => ?_, ?_⟩, ⟨fun h => ?_, ?_⟩⟩
  · exact ⟨neg, by omega, rfl, (zero_iff.mpr h).symm⟩
  · rintro ⟨_, _, _, zero⟩
    exact zero_iff.mp zero.symm
  · exact ⟨neg, _, ⟨by omega, rfl, rfl⟩, pos_iff.mpr (by omega), small_iff.mpr h.1⟩
  · rintro ⟨_, _, ⟨_, _, rfl⟩, pos, small⟩
    have := pos_iff.mp pos
    have := small_iff.mp small
    omega
  · exact ⟨neg, _, ⟨h.2, rfl, rfl⟩, not_lt.mp (mt small_iff.mp (by omega))⟩
  · rintro ⟨_, _, ⟨le, _, rfl⟩, large⟩
    have := mt small_iff.mpr (not_lt.mpr large)
    omega

/-- Two sets of fields that denote one value, not NaN, are the same. -/
theorem fieldsValue_inj {neg neg' : Bool} {e' m' : ℕ} (hm : m < 2 ^ w) (hm' : m' < 2 ^ w) (he : e ≤ top + 1)
    (he' : e' ≤ top + 1) (not_nan : fieldsValue w q top neg e m ≠ .nan)
    (same : fieldsValue w q top neg e m = fieldsValue w q top neg' e' m') : neg = neg' ∧ e = e' ∧ m = m' := by
  cases value : fieldsValue w q top neg e m with
  | nan => exact absurd value not_nan
  | infinite s =>
    obtain ⟨⟨lt, rfl⟩, rfl⟩ := fieldsValue_eq_infinite_iff.mp value
    obtain ⟨⟨lt', rfl⟩, rfl⟩ := fieldsValue_eq_infinite_iff.mp (same.symm.trans value)
    exact ⟨rfl, by omega, rfl⟩
  | finite s x =>
    obtain ⟨le, rfl, rfl⟩ := fieldsValue_eq_finite_iff.mp value
    obtain ⟨le', rfl, magnitude⟩ := fieldsValue_eq_finite_iff.mp (same.symm.trans value)
    exact ⟨rfl, floatMagnitude_inj hm hm' magnitude⟩

end fields

/-- Settles O8: the two formats' tables have one shape. -/
theorem classesAgreeWithValues : Obligations.ClassesAgreeWithValues := by
  refine ⟨fun h => ?_, fun a => ?_⟩
  · rw [value16_eq_fieldsValue, class16_eq_fieldsClass]
    exact fieldsClass_agrees _ (by decide) (mantissa16_lt h)
  · rw [value64_eq_fieldsValue, class64_eq_fieldsClass]
    exact fieldsClass_agrees _ (by decide) (fraction64_lt a)

theorem class16_ne_nan_iff (h : Fp16) : class16 h ≠ .nan ↔ value16 h ≠ .nan :=
  not_congr (classesAgreeWithValues.1 h).1

theorem class64_ne_nan_iff (a : Fp64) : class64 a ≠ .nan ↔ value64 a ≠ .nan :=
  not_congr (classesAgreeWithValues.2 a).1

/-- Two binary64 patterns of one value that is not NaN are the same pattern. -/
theorem value64_inj {a b : Fp64} (not_nan : class64 a ≠ .nan) (same : value64 a = value64 b) : a = b := by
  have value_not_nan := (class64_ne_nan_iff a).mp not_nan
  rw [value64_eq_fieldsValue a] at value_not_nan
  rw [value64_eq_fieldsValue a, value64_eq_fieldsValue b] at same
  obtain ⟨sign, exponent, fraction⟩ := fieldsValue_inj (fraction64_lt a) (fraction64_lt b)
    (Nat.le_of_lt_succ (exponent64_lt a)) (Nat.le_of_lt_succ (exponent64_lt b)) value_not_nan same
  apply BitVec.eq_of_toNat_eq
  rw [toNat_eq_fields64 a, toNat_eq_fields64 b, sign64_eq_ite a, sign64_eq_ite b, sign, exponent, fraction]

/-- The bits below the sign, as a number. -/
theorem toNat_and_lowMask (h : Fp16) : (h &&& 0x7FFF#16).toNat = exponent16 h * 2 ^ 10 + mantissa16 h := by
  have fields := toNat_eq_fields16 h
  have := exponent16_lt h
  have := mantissa16_lt h
  have low : (h &&& 0x7FFF#16).toNat = h.toNat % 2 ^ 15 := Nat.and_two_pow_sub_one_eq_mod h.toNat 15
  omega

/-- Two finite binary16 values have one magnitude exactly when their patterns agree below the sign bit. -/
theorem low_eq_iff {h k : Fp16} {s t : Bool} {x y : ℚ} (hh : value16 h = .finite s x) (hk : value16 k = .finite t y) :
    h &&& 0x7FFF#16 = k &&& 0x7FFF#16 ↔ x = y := by
  rw [value16_eq_fieldsValue, fieldsValue_eq_finite_iff] at hh hk
  obtain ⟨-, -, rfl⟩ := hh
  obtain ⟨-, -, rfl⟩ := hk
  have hm := mantissa16_lt h
  have km := mantissa16_lt k
  rw [← BitVec.toNat_inj, toNat_and_lowMask, toNat_and_lowMask]
  constructor
  · intro same
    obtain ⟨exponent, mantissa⟩ : exponent16 h = exponent16 k ∧ mantissa16 h = mantissa16 k := by omega
    rw [exponent, mantissa]
  · intro same
    obtain ⟨exponent, mantissa⟩ := floatMagnitude_inj hm km same
    rw [exponent, mantissa]

/-- The magnitude bits of infinity, and of nothing else. -/
theorem value16_infinite_iff (h : Fp16) : (∃ s, value16 h = .infinite s) ↔ h &&& 0x7FFF#16 = 0x7C00#16 := by
  have := exponent16_lt h
  have := mantissa16_lt h
  simp only [value16_eq_fieldsValue, fieldsValue_eq_infinite_iff, exists_and_left, exists_eq, and_true]
  rw [← BitVec.toNat_inj, toNat_and_lowMask]
  change _ ↔ _ = 0x7C00
  omega

/-! ### Decode keeps the value -/

theorem value64_pack64 {s E F : ℕ} (hs : s ≤ 1) (hE : E < 2048) (hF : F < 2 ^ 52) :
    value64 (pack64 s E F) = fieldsValue 52 (-1075) 2046 (decide (s = 1)) E F := by
  rw [value64_eq_fieldsValue, ← decide_sign64_eq_one, sign64_pack64 hs hE hF, exponent64_pack64 hs hE hF,
    fraction64_pack64 hs hE hF]

/-- Settles O36: normalising and rebiasing move powers of two between significand and exponent. -/
theorem decodeIsExact : Obligations.DecodeIsExact := by
  intro mode h not_nan
  have hs := sign16_le_one h
  have hm := mantissa16_lt h
  rw [value16_eq_fieldsValue, ← decide_sign16_eq_one]
  obtain ⟨he, hm0⟩ | ⟨he, hm0⟩ | ⟨lo, hi⟩ | ⟨he, hm0⟩ := fields16_of_not_nan not_nan
  · rw [fpDecode_of_zero mode he hm0, value64_pack64 hs (by decide) (by decide), he, hm0]
    simp [fieldsValue, floatMagnitude]
  · obtain ⟨index_le, normalised⟩ := two_pow_add_normalised hm0 hm
    have scale : ((52 - msbIndex (mantissa16 h) : ℕ) : ℤ) + ((msbIndex (mantissa16 h) + 999 : ℕ) + -1075) = 1 + -25 := by
      omega
    rw [fpDecode_of_subnormal mode he hm0, value64_pack64 hs (by omega) (Nat.mod_lt _ (by decide)), he, fieldsValue,
      fieldsValue, if_pos (by omega), if_pos (by decide), floatMagnitude_of_pos (by omega), normalised, floatMagnitude_zero,
      cast_mul_two_pow_scale, scale]
  · have quanta : 2 ^ 52 + mantissa16 h * 2 ^ 42 = (2 ^ 10 + mantissa16 h) * 2 ^ 42 := by omega
    have scale : ((42 : ℕ) : ℤ) + ((exponent16 h + 1008 : ℕ) + -1075) = exponent16 h + -25 := by omega
    rw [fpDecode_of_normal mode lo hi, value64_pack64 hs (by omega) (by omega), fieldsValue, fieldsValue,
      if_pos (by omega), if_pos hi, floatMagnitude_of_pos (by omega), floatMagnitude_of_pos lo, quanta,
      cast_mul_two_pow_scale, scale]
  · rw [fpDecode_of_infinity mode he hm0, value64_pack64 hs (by decide) (by decide), he, hm0]
    rfl

end Sys2Proof.Machine
end

section
/-! PROOF. Rounding on exact values (40_fp64_to_fp16.md R117): the nearest integer, the quantum of a binade, and the rounded
magnitude, which is monotone; encode's rounding shift computes it. -/

namespace Sys2Proof.Machine

/-! ### The nearest integer, ties to even -/

/-- `n` is nearest to `x`, and is even if `x` lies half way to a neighbour. -/
def NearestEven (x : ℚ) (n : ℤ) : Prop :=
  (n : ℚ) - 1 / 2 ≤ x ∧ x ≤ n + 1 / 2 ∧ ((x = n - 1 / 2 ∨ x = n + 1 / 2) → n % 2 = 0)

theorem nearestEven_roundHalfEven (x : ℚ) : NearestEven x (roundHalfEven x) := by
  have lo := Int.floor_le x
  have hi := Int.lt_floor_add_one x
  rw [roundHalfEven]
  split_ifs with below above even
  · exact ⟨by linarith, by linarith, by rintro (tie | tie) <;> linarith⟩
  · refine ⟨?_, ?_, ?_⟩ <;> push_cast
    · linarith
    · linarith
    · rintro (tie | tie) <;> linarith
  · exact ⟨by linarith, by linarith, fun _ => even⟩
  · refine ⟨?_, ?_, fun _ => by omega⟩ <;> push_cast <;> linarith

/-- The order is kept: two nearest integers could cross at a tie only, and there just one of them is even. -/
theorem nearestEven_le_of_le {x y : ℚ} {n m : ℤ} (hn : NearestEven x n) (hm : NearestEven y m) (le : x ≤ y) : n ≤ m := by
  obtain ⟨lo, -, tie_n⟩ := hn
  obtain ⟨-, hi, tie_m⟩ := hm
  by_contra! gt
  have step : (m : ℚ) + 1 ≤ n := by exact_mod_cast gt
  have n_eq : (n : ℚ) = m + 1 := by linarith
  have even_n := tie_n (.inl (by linarith))
  have even_m := tie_m (.inr (by linarith))
  have : n = m + 1 := by exact_mod_cast n_eq
  omega

theorem roundHalfEven_mono {x y : ℚ} (h : x ≤ y) : roundHalfEven x ≤ roundHalfEven y :=
  nearestEven_le_of_le (nearestEven_roundHalfEven x) (nearestEven_roundHalfEven y) h

theorem roundHalfEven_eq {x : ℚ} {n : ℤ} (h : NearestEven x n) : roundHalfEven x = n :=
  le_antisymm (nearestEven_le_of_le (nearestEven_roundHalfEven x) h le_rfl)
    (nearestEven_le_of_le h (nearestEven_roundHalfEven x) le_rfl)

theorem roundHalfEven_intCast (n : ℤ) : roundHalfEven n = n :=
  roundHalfEven_eq ⟨by linarith, by linarith, by rintro (tie | tie) <;> linarith⟩

/-- Nearness of `n` to a quotient, by the remainder it leaves. -/
theorem nearestEven_div {M n w : ℤ} (hw : 0 < w) (near : 2 * |M - n * w| ≤ w) (tie : 2 * |M - n * w| = w → n % 2 = 0) :
    NearestEven ((M : ℚ) / w) n := by
  have width : (0 : ℚ) < w := by exact_mod_cast hw
  have doubled : 2 * |M - n * w| = |2 * (M - n * w)| := by rw [abs_mul, abs_two]
  rw [doubled] at near tie
  obtain ⟨lo, hi⟩ := abs_le.mp near
  have lo' : -(w : ℚ) ≤ 2 * (M - n * w) := by exact_mod_cast lo
  have hi' : 2 * ((M : ℚ) - n * w) ≤ w := by exact_mod_cast hi
  refine ⟨?_, ?_, ?_⟩
  · rw [le_div_iff₀ width]
    linarith
  · rw [div_le_iff₀ width]
    linarith
  · rw [div_eq_iff width.ne', div_eq_iff width.ne']
    rintro (half | half)
    · have below : 2 * ((M : ℚ) - n * w) = -w := by linarith
      have below' : 2 * (M - n * w) = -w := by exact_mod_cast below
      exact tie (by rw [below', abs_neg, abs_of_pos hw])
    · have above : 2 * ((M : ℚ) - n * w) = w := by linarith
      have above' : 2 * (M - n * w) = w := by exact_mod_cast above
      exact tie (by rw [above', abs_of_pos hw])

/-- RNE_SHIFT is the nearest integer to `M / 2^k` (R107). -/
theorem roundHalfEven_div_two_pow (M : ℕ) {k : ℕ} (hk : 1 ≤ k) : roundHalfEven ((M : ℚ) / 2 ^ k) = rneShift M k := by
  obtain ⟨near, tie⟩ := rneShift_error M hk
  have nearest := nearestEven_div (M := M) (n := rneShift M k) (w := 2 ^ k) (by positivity) near
    fun half => by exact_mod_cast tie half
  push_cast at nearest
  exact roundHalfEven_eq nearest

/-! ### The quantum of a binade -/

theorem quantum16_pos (x : ℚ) : 0 < quantum16 x := zpow_pos two_pos _

/-- The quantum in `[2^t, 2^(t+1))`, for a binade of the normals. -/
theorem quantum16_of_binade {x : ℚ} {t : ℤ} (ht : -14 ≤ t) (lo : 2 ^ t ≤ x) (hi : x < 2 ^ (t + 1)) :
    quantum16 x = 2 ^ (t - 10) := by
  have pos : 0 < x := (zpow_pos two_pos t).trans_le lo
  have log_eq : Int.log 2 x = t := by
    have le := (Int.zpow_le_iff_le_log (b := 2) (by decide) pos).mp (by exact_mod_cast lo)
    have lt := (Int.lt_zpow_iff_log_lt (b := 2) (by decide) pos).mp (by exact_mod_cast hi)
    omega
  rw [quantum16, log_eq, max_eq_left ht]

/-- Below the least normal the quantum is the subnormals'. -/
theorem quantum16_of_small {x : ℚ} (pos : 0 < x) (hi : x < 2 ^ (-14 : ℤ)) : quantum16 x = 2 ^ (-24 : ℤ) := by
  have lt : Int.log 2 x < -14 := (Int.lt_zpow_iff_log_lt (b := 2) (by decide) pos).mp (by exact_mod_cast hi)
  rw [quantum16, max_eq_right lt.le]
  norm_num

/-! ### The rounded magnitude -/

theorem roundMagnitude_zero : roundMagnitude 0 = 0 := by
  rw [roundMagnitude, zero_div, ← Int.cast_zero, roundHalfEven_intCast, Int.cast_zero, zero_mul]

theorem roundMagnitude_nonneg {x : ℚ} (h : 0 ≤ x) : 0 ≤ roundMagnitude x := by
  have nonneg : 0 ≤ roundHalfEven (x / quantum16 x) := by
    rw [← roundHalfEven_intCast 0]
    exact roundHalfEven_mono (by rw [Int.cast_zero]; exact div_nonneg h (quantum16_pos x).le)
  exact mul_nonneg (by exact_mod_cast nonneg) (quantum16_pos x).le

theorem roundMagnitude_eq_of_quantum {x u : ℚ} (hu : quantum16 x = u) : roundMagnitude x = roundHalfEven (x / u) * u := by
  rw [roundMagnitude, hu]

/-- No multiple of the quantum lies strictly between a magnitude and its rounding. -/
theorem roundMagnitude_le_multiple {x : ℚ} {n : ℤ} (h : x ≤ n * quantum16 x) : roundMagnitude x ≤ n * quantum16 x := by
  have le : roundHalfEven (x / quantum16 x) ≤ n := by
    rw [← roundHalfEven_intCast n]
    exact roundHalfEven_mono ((div_le_iff₀ (quantum16_pos x)).mpr h)
  exact mul_le_mul_of_nonneg_right (by exact_mod_cast le) (quantum16_pos x).le

theorem multiple_le_roundMagnitude {x : ℚ} {n : ℤ} (h : n * quantum16 x ≤ x) : n * quantum16 x ≤ roundMagnitude x := by
  have le : n ≤ roundHalfEven (x / quantum16 x) := by
    rw [← roundHalfEven_intCast n]
    exact roundHalfEven_mono ((le_div_iff₀ (quantum16_pos x)).mpr h)
  exact mul_le_mul_of_nonneg_right (by exact_mod_cast le) (quantum16_pos x).le

/-- A power of two from the quantum's on is a multiple of it. -/
theorem two_zpow_eq_multiple {c t : ℤ} (h : c ≤ t) : ((2 ^ (t - c).toNat : ℤ) : ℚ) * 2 ^ c = 2 ^ t := by
  have exponent : ((t - c).toNat : ℤ) + c = t := by omega
  rw [← exponent, two_zpow_natCast_add, exponent]
  push_cast
  rfl

/-- Rounding keeps the order: within a binade by the nearest integer, and else through the power of two that begins `y`'s. -/
theorem roundMagnitude_mono {x y : ℚ} (hx : 0 ≤ x) (h : x ≤ y) : roundMagnitude x ≤ roundMagnitude y := by
  rcases hx.eq_or_lt with rfl | pos
  · rw [roundMagnitude_zero]
    exact roundMagnitude_nonneg h
  have pos_y := pos.trans_le h
  have log_le : Int.log 2 x ≤ Int.log 2 y := Int.log_mono_right pos h
  rcases (max_le_max_right (-14) log_le).eq_or_lt with same | lt
  · have same_quantum : quantum16 x = quantum16 y := by rw [quantum16, same, quantum16]
    rw [roundMagnitude, roundMagnitude, ← same_quantum]
    have le := roundHalfEven_mono (div_le_div_of_nonneg_right h (quantum16_pos x).le)
    exact mul_le_mul_of_nonneg_right (by exact_mod_cast le) (quantum16_pos x).le
  · have starts : max (Int.log 2 y) (-14) = Int.log 2 y := by omega
    have log_lt : Int.log 2 x < Int.log 2 y := by omega
    have x_le : x ≤ 2 ^ Int.log 2 y := by
      exact_mod_cast ((Int.lt_zpow_iff_log_lt (b := 2) (by decide) pos).mpr log_lt).le
    have le_y : 2 ^ Int.log 2 y ≤ y := by
      exact_mod_cast (Int.zpow_le_iff_le_log (b := 2) (by decide) pos_y).mpr le_rfl
    have multiple_x := two_zpow_eq_multiple (c := max (Int.log 2 x) (-14) - 10) (t := Int.log 2 y) (by omega)
    have multiple_y := two_zpow_eq_multiple (c := max (Int.log 2 y) (-14) - 10) (t := Int.log 2 y) (by omega)
    calc roundMagnitude x ≤ _ := roundMagnitude_le_multiple (x_le.trans_eq multiple_x.symm)
      _ = 2 ^ Int.log 2 y := multiple_x
      _ = _ := multiple_y.symm
      _ ≤ roundMagnitude y := multiple_le_roundMagnitude (multiple_y.trans_le le_y)

/-- A magnitude of `M / 2^k` quanta is rounded by RNE_SHIFT. -/
theorem roundMagnitude_of_quanta {x u : ℚ} {M k : ℕ} (hk : 1 ≤ k) (hu : quantum16 x = u) (hx : x = M / 2 ^ k * u) :
    roundMagnitude x = rneShift M k * u := by
  have pos : 0 < u := hu ▸ quantum16_pos x
  have quotient : x / u = M / 2 ^ k := by rw [hx, mul_div_assoc, div_self pos.ne', mul_one]
  rw [roundMagnitude_eq_of_quantum hu, quotient, roundHalfEven_div_two_pow M hk, Int.cast_natCast]

end Sys2Proof.Machine
end

section
/-! PROOF. Encode at the level of values (40_fp64_to_fp16.md section 3): the result denotes the rounded value. From it the
thresholds (section 2), monotonicity, the round trip from binary64, and the host's predicates (60_exceptions.md section 1). -/

namespace Sys2Proof.Machine

/-! ### The rounded magnitude of a binary64 operand -/

/-- Below the least normal, binary64 subnormals and zeros included (R110). -/
theorem roundMagnitude_of_subnormal_range {E F : ℕ} (hF : F < 2 ^ 52) (hE : E ≤ 1008) :
    roundMagnitude (floatMagnitude 52 (-1075) E F) = rneShift (significand64 E F) (subnormalShift E) * 2 ^ (-24 : ℤ) := by
  have shift := subnormalShift_cast hE
  have shift_ge := subnormalShift_ge hE
  have quanta : floatMagnitude 52 (-1075) E F = (significand64 E F : ℚ) / 2 ^ subnormalShift E * 2 ^ (-24 : ℤ) := by
    rw [floatMagnitude_eq_significand64, ← mul_two_zpow_eq_quanta, shift]
    congr 2
    ring
  rcases (floatMagnitude_nonneg (w := 52) (q := -1075) (e := E) (m := F)).eq_or_lt with zero | pos
  · have no_quanta : significand64 E F = 0 := by
      obtain ⟨rfl, rfl⟩ := floatMagnitude_eq_zero_iff.mp zero.symm
      rfl
    rw [← zero, roundMagnitude_zero, no_quanta, rneShift_eq_zero (Nat.two_pow_pos _), Nat.cast_zero, zero_mul]
  · have small : floatMagnitude 52 (-1075) E F < 2 ^ (-14 : ℤ) :=
      (floatMagnitude_lt hF).trans_le (zpow_le_zpow_right₀ one_le_two (by omega))
    exact roundMagnitude_of_quanta (by omega) (quantum16_of_small pos small) quanta

/-- From the least normal on (R109), continued above the greatest binade of binary16. -/
theorem roundMagnitude_of_normal_range {E F : ℕ} (hF : F < 2 ^ 52) (hE : 1009 ≤ E) :
    roundMagnitude (floatMagnitude 52 (-1075) E F) = rneShift (2 ^ 52 + F) 42 * 2 ^ ((E : ℤ) - 1033) := by
  have lo : (2 : ℚ) ^ ((E : ℤ) - 1023) ≤ floatMagnitude 52 (-1075) E F := by
    have binade : ((52 : ℕ) : ℤ) + E + -1075 = E - 1023 := by omega
    exact binade ▸ le_floatMagnitude (by omega)
  have hi : floatMagnitude 52 (-1075) E F < 2 ^ ((E : ℤ) - 1023 + 1) := by
    have binade : ((52 : ℕ) : ℤ) + (E + 1 : ℕ) + -1075 = E - 1023 + 1 := by omega
    exact binade ▸ floatMagnitude_lt hF
  have quantum : quantum16 (floatMagnitude 52 (-1075) E F) = 2 ^ ((E : ℤ) - 1033) := by
    rw [quantum16_of_binade (by omega) lo hi]
    congr 1
    ring
  have quanta : floatMagnitude 52 (-1075) E F = ((2 ^ 52 + F : ℕ) : ℚ) / 2 ^ 42 * 2 ^ ((E : ℤ) - 1033) := by
    have scale : (E : ℤ) - 1033 - (42 : ℕ) = E + -1075 := by omega
    rw [floatMagnitude_of_pos (by omega), ← mul_two_zpow_eq_quanta, scale]
  exact roundMagnitude_of_quanta (by decide) quantum quanta

/-! ### The value of the fifteen low bits -/

/-- A mantissa may carry into the exponent field without changing the value: to the least normal. -/
theorem floatMagnitude_carry_zero {w m : ℕ} {q : ℤ} (hm : m ≤ 2 ^ w) :
    floatMagnitude w q (m / 2 ^ w) (m % 2 ^ w) = m * 2 ^ (1 + q) := by
  rcases hm.eq_or_lt with rfl | lt
  · rw [Nat.div_self (Nat.two_pow_pos w), Nat.mod_self, floatMagnitude_of_pos le_rfl, Nat.add_zero, Nat.cast_one]
  · rw [Nat.div_eq_of_lt lt, Nat.mod_eq_of_lt lt, floatMagnitude_zero]

/-- A mantissa may carry into the exponent field without changing the value: to the next binade. -/
theorem floatMagnitude_carry {w e m : ℕ} {q : ℤ} (he : 1 ≤ e) (hm : m ≤ 2 ^ w) :
    floatMagnitude w q ((e * 2 ^ w + m) / 2 ^ w) ((e * 2 ^ w + m) % 2 ^ w) = ((2 ^ w + m : ℕ) : ℚ) * 2 ^ (e + q) := by
  have pos := Nat.two_pow_pos w
  rcases hm.eq_or_lt with rfl | lt
  · have whole : e * 2 ^ w + 2 ^ w = (e + 1) * 2 ^ w := (Nat.succ_mul _ _).symm
    have twice : (2 ^ w + 2 ^ w : ℕ) = 2 ^ w * 2 ^ 1 := by omega
    have next : ((1 : ℕ) : ℤ) + (e + q) = (e + 1 : ℕ) + q := by omega
    rw [whole, Nat.mul_div_cancel _ pos, Nat.mul_mod_left, floatMagnitude_of_pos (by omega), Nat.add_zero, twice,
      cast_mul_two_pow_scale, next]
  · rw [Nat.add_comm, Nat.add_mul_div_right _ _ pos, Nat.add_mul_mod_self_right, Nat.div_eq_of_lt lt, Nat.mod_eq_of_lt lt,
      Nat.zero_add, floatMagnitude_of_pos he]

theorem fieldsValue_infinity {w top e : ℕ} {q : ℤ} {s : Bool} (h : top < e) : fieldsValue w q top s e 0 = .infinite s :=
  fieldsValue_eq_infinite_iff.mpr ⟨⟨h, rfl⟩, rfl⟩

/-- The value of encode's word, by its fifteen low bits. -/
theorem value16_fpEncode (mode : EncNanMode) {a : Fp64} (not_nan : class64 a ≠ .nan) :
    value16 (fpEncode mode a) = fieldsValue 10 (-25) 30 (a.getLsbD 63)
      (encLowBits mode (exponent64 a) (fraction64 a) / 2 ^ 10) (encLowBits mode (exponent64 a) (fraction64 a) % 2 ^ 10) := by
  obtain ⟨word, le⟩ := fpEncode_toNat_of_not_nan mode not_nan
  have mantissa_lt := Nat.mod_lt (encLowBits mode (exponent64 a) (fraction64 a)) (by decide : 2 ^ 10 > 0)
  rw [← Nat.div_add_mod' (encLowBits mode (exponent64 a) (fraction64 a)) (2 ^ 10)] at word
  rw [value16_eq_fieldsValue, fpEncode_bit15, if_neg fun h => not_nan h.1,
    exponent16_of_toNat word (by omega) mantissa_lt, mantissa16_of_toNat word mantissa_lt]

/-! ### Encode rounds the value -/

/-- R117 for every finite value, zero included: it rounds to zero. -/
theorem roundTo16_finite (s : Bool) (x : ℚ) : roundTo16 (.finite s x) =
    if roundMagnitude x ≤ 65504 then .finite s (roundMagnitude x) else .infinite s := by
  by_cases zero : x = 0
  · rw [roundTo16, if_pos zero, zero, roundMagnitude_zero, if_pos (by norm_num)]
  · rw [roundTo16, if_neg zero]

/-- A rounded magnitude below the top binade's carry is at most 65504, the greatest finite one. -/
theorem quanta_le_65504_iff {n E : ℕ} (lo : 1009 ≤ E) (hi : E ≤ 1038) (n_le : n ≤ 2048) :
    (n : ℚ) * 2 ^ ((E : ℤ) - 1033) ≤ 65504 ↔ ¬(E = 1038 ∧ n = 2048) := by
  constructor
  · rintro le ⟨rfl, rfl⟩
    norm_num at le
  · intro no_carry
    rcases (by omega : E ≤ 1037 ∨ (E = 1038 ∧ n ≤ 2047)) with below | ⟨rfl, n_le⟩
    · calc (n : ℚ) * 2 ^ ((E : ℤ) - 1033) ≤ (2048 : ℕ) * 2 ^ (4 : ℤ) := by
            gcongr
            · exact one_le_two
            · omega
        _ ≤ 65504 := by norm_num
    · calc (n : ℚ) * 2 ^ (((1038 : ℕ) : ℤ) - 1033) ≤ (2047 : ℕ) * 2 ^ (((1038 : ℕ) : ℤ) - 1033) := by gcongr
        _ ≤ 65504 := by norm_num

/-- The fifteen low bits name the rounded magnitude, or infinity where it exceeds 65504. -/
theorem fieldsValue_encLowBits (mode : EncNanMode) (s : Bool) {E F : ℕ} (hF : F < 2 ^ 52) (hE : E ≤ 2046) :
    fieldsValue 10 (-25) 30 s (encLowBits mode E F / 2 ^ 10) (encLowBits mode E F % 2 ^ 10) =
      roundTo16 (.finite s (floatMagnitude 52 (-1075) E F)) := by
  rw [roundTo16_finite, encLowBits_of_finite mode F hE]
  rcases (by omega : E ≤ 1008 ∨ (1009 ≤ E ∧ E ≤ 1038) ∨ 1039 ≤ E) with sub | ⟨lo, hi⟩ | large
  · have n_le := rneShift_le_1024 (significand64_lt_quanta hF sub)
    have le : (rneShift (significand64 E F) (subnormalShift E) : ℚ) * 2 ^ (-24 : ℤ) ≤ 65504 :=
      calc _ ≤ ((1024 : ℕ) : ℚ) * 2 ^ (-24 : ℤ) := by gcongr
        _ ≤ 65504 := by norm_num
    rw [encMagnitude_of_subnormal _ sub, roundMagnitude_of_subnormal_range hF sub, fieldsValue, if_pos (by omega),
      floatMagnitude_carry_zero n_le, if_pos le]
    rfl
  · obtain ⟨n_ge, n_le⟩ := rneShift_42_bounds (M := 2 ^ 52 + F) (by omega) (by omega)
    have n_eq : 2 ^ 10 + (rneShift (2 ^ 52 + F) 42 - 1024) = rneShift (2 ^ 52 + F) 42 := Nat.add_sub_cancel' n_ge
    have exponent : ((E - 1008 : ℕ) : ℤ) + -25 = E - 1033 := by omega
    rw [encMagnitude_of_normal F lo hi, roundMagnitude_of_normal_range hF lo, fieldsValue,
      floatMagnitude_carry (by omega) (by omega), n_eq, exponent]
    by_cases carry : E = 1038 ∧ rneShift (2 ^ 52 + F) 42 = 2048
    · rw [if_neg (by omega), if_pos (by omega), if_neg (mt (quanta_le_65504_iff lo hi n_le).mp (not_not.mpr carry))]
    · rw [if_pos (by omega), if_pos ((quanta_le_65504_iff lo hi n_le).mpr carry)]
  · obtain ⟨n_ge, -⟩ := rneShift_42_bounds (M := 2 ^ 52 + F) (by omega) (by omega)
    have above : (65504 : ℚ) < rneShift (2 ^ 52 + F) 42 * 2 ^ ((E : ℤ) - 1033) :=
      calc (65504 : ℚ) < (1024 : ℕ) * 2 ^ (6 : ℤ) := by norm_num
        _ ≤ _ := by
          gcongr
          · exact one_le_two
          · omega
    rw [encMagnitude_of_large _ large, roundMagnitude_of_normal_range hF (by omega), if_neg (not_le.mpr above)]
    exact fieldsValue_infinity (by decide)

/-- Settles O22. -/
theorem encodeDenotesTheRoundedValue : Obligations.EncodeDenotesTheRoundedValue := by
  intro mode a not_nan
  rw [value16_fpEncode mode not_nan, value64_eq_fieldsValue]
  by_cases hE : exponent64 a ≤ 2046
  · rw [fieldsValue_encLowBits mode _ (fraction64_lt a) hE, fieldsValue, if_pos hE]
  · have := mt (class64_eq_nan_iff a).mpr not_nan
    have := exponent64_lt a
    have special : exponent64 a = 2047 := by omega
    have infinity : fraction64 a = 0 := by omega
    rw [special, infinity, encLowBits_infinity, fieldsValue_infinity (by decide)]
    exact fieldsValue_infinity (by decide)

/-- Settles O39: decode keeps the value that encode gives, and a binary16 value is its own pattern's only one. -/
theorem decodeOfEncodeIsTheRoundedInput : Obligations.DecodeOfEncodeIsTheRoundedInput := by
  intro em dm a not_nan
  have exact_decode := decodeIsExact dm (fpEncode em a) (mt (class16_fpEncode_eq_nan_iff em a).mp not_nan)
  refine ⟨exact_decode.trans (encodeDenotesTheRoundedValue em a not_nan), fun back => ⟨fpEncode em a, ?_⟩, ?_⟩
  · rw [← exact_decode, back]
  · rintro ⟨h, same⟩
    have h_not_nan : class16 h ≠ .nan := by rwa [class16_ne_nan_iff, same, ← class64_ne_nan_iff]
    have a_eq : a = fpDecode dm h := value64_inj not_nan (same.symm.trans (decodeIsExact dm h h_not_nan).symm)
    rw [a_eq, fpEncode_fpDecode em dm h_not_nan]

/-! ### Monotonicity -/

/-- A finite value of either format has a magnitude that is not negative. -/
theorem value64_finite_nonneg {a : Fp64} {s : Bool} {x : ℚ} (h : value64 a = .finite s x) : 0 ≤ x := by
  rw [value64_eq_fieldsValue, fieldsValue_eq_finite_iff] at h
  exact h.2.2 ▸ floatMagnitude_nonneg

theorem infinite_false_max {v : Value} (h : v ≠ .nan) : v.le (.infinite false) = true := by
  cases v with
  | finite s x => rfl
  | infinite s => cases s <;> rfl
  | nan => exact absurd rfl h

theorem infinite_true_min {v : Value} (h : v ≠ .nan) : (Value.infinite true).le v = true := by
  cases v with
  | finite s x => rfl
  | infinite s => cases s <;> rfl
  | nan => exact absurd rfl h

theorem finite_le_finite_iff {s t : Bool} {x y : ℚ} :
    (Value.finite s x).le (.finite t y) = true ↔ signedValue s x ≤ signedValue t y := decide_eq_true_iff

theorem roundTo16_finite_ne_nan (s : Bool) (x : ℚ) : roundTo16 (.finite s x) ≠ .nan := by
  rw [roundTo16_finite]
  split <;> nofun

/-- Rounding keeps the order of two finite values: by their signs the magnitudes are ordered alike, reversed, or apart at 0. -/
theorem roundTo16_finite_mono {s t : Bool} {x y : ℚ} (hx : 0 ≤ x) (hy : 0 ≤ y) (h : signedValue s x ≤ signedValue t y) :
    (roundTo16 (.finite s x)).le (roundTo16 (.finite t y)) = true := by
  have rx := roundMagnitude_nonneg hx
  have ry := roundMagnitude_nonneg hy
  have x_not_nan := roundTo16_finite_ne_nan s x
  have y_not_nan := roundTo16_finite_ne_nan t y
  match s, t with
  | false, false =>
    have mono := roundMagnitude_mono hx (y := y) h
    by_cases fits : roundMagnitude y ≤ 65504
    · rw [roundTo16_finite, roundTo16_finite, if_pos fits, if_pos (mono.trans fits)]
      exact finite_le_finite_iff.mpr mono
    · rw [roundTo16_finite false y, if_neg fits]
      exact infinite_false_max x_not_nan
  | true, true =>
    have mono := roundMagnitude_mono hy (y := x) (neg_le_neg_iff.mp h)
    by_cases fits : roundMagnitude x ≤ 65504
    · rw [roundTo16_finite, roundTo16_finite, if_pos fits, if_pos (mono.trans fits)]
      exact finite_le_finite_iff.mpr (neg_le_neg mono)
    · rw [roundTo16_finite true x, if_neg fits]
      exact infinite_true_min y_not_nan
  | true, false =>
    by_cases x_fits : roundMagnitude x ≤ 65504
    · by_cases y_fits : roundMagnitude y ≤ 65504
      · rw [roundTo16_finite, roundTo16_finite, if_pos x_fits, if_pos y_fits]
        exact finite_le_finite_iff.mpr ((neg_nonpos.mpr rx).trans ry)
      · rw [roundTo16_finite false y, if_neg y_fits]
        exact infinite_false_max x_not_nan
    · rw [roundTo16_finite true x, if_neg x_fits]
      exact infinite_true_min y_not_nan
  | false, true =>
    have h' : x ≤ -y := h
    obtain rfl : x = 0 := by linarith
    obtain rfl : y = 0 := by linarith
    exact finite_le_finite_iff.mpr (by decide)

theorem ne_nan_of_le {v w : Value} (h : v.le w = true) : v ≠ .nan ∧ w ≠ .nan := by
  constructor
  · rintro rfl
    cases h
  · rintro rfl
    cases v <;> cases h

theorem roundTo16_ne_nan {v : Value} (h : v ≠ .nan) : roundTo16 v ≠ .nan := by
  cases v with
  | finite s x => exact roundTo16_finite_ne_nan s x
  | infinite s => nofun
  | nan => exact absurd rfl h

/-- Rounding is monotone on values that are not NaN: it keeps the infinities, which end the order. -/
theorem roundTo16_mono {v w : Value} (hv : ∀ s x, v = .finite s x → 0 ≤ x) (hw : ∀ s x, w = .finite s x → 0 ≤ x)
    (h : v.le w = true) : (roundTo16 v).le (roundTo16 w) = true := by
  obtain ⟨v_not_nan, w_not_nan⟩ := ne_nan_of_le h
  match v, w with
  | .nan, _ => exact absurd rfl v_not_nan
  | _, .nan => exact absurd rfl w_not_nan
  | .infinite true, w => exact infinite_true_min (roundTo16_ne_nan w_not_nan)
  | v, .infinite false => exact infinite_false_max (roundTo16_ne_nan v_not_nan)
  | .finite s x, .finite t y => exact roundTo16_finite_mono (hv s x rfl) (hw t y rfl) (finite_le_finite_iff.mp h)
  | .infinite false, .finite _ _ => cases h
  | .finite _ _, .infinite true => cases h
  | .infinite false, .infinite true => cases h

/-- Settles O27. -/
theorem encodeIsMonotone : Obligations.EncodeIsMonotone := by
  intro mode a b h
  obtain ⟨a_not_nan, b_not_nan⟩ := ne_nan_of_le h
  rw [encodeDenotesTheRoundedValue mode a ((class64_ne_nan_iff a).mpr a_not_nan),
    encodeDenotesTheRoundedValue mode b ((class64_ne_nan_iff b).mpr b_not_nan)]
  exact roundTo16_mono (fun _ _ => value64_finite_nonneg) (fun _ _ => value64_finite_nonneg) h

end Sys2Proof.Machine
end

section
/-! PROOF. Encode's thresholds (40_fp64_to_fp16.md section 2) and the host's predicates (60_exceptions.md section 1), both read off
the rounded value. -/

namespace Sys2Proof.Machine

/-! ### The rounded magnitude at the ends of the range -/

theorem roundMagnitude_of_small {x : ℚ} {n : ℤ} (pos : 0 < x) (hi : x < 2 ^ (-14 : ℤ))
    (near : NearestEven (x / 2 ^ (-24 : ℤ)) n) : roundMagnitude x = n * 2 ^ (-24 : ℤ) := by
  rw [roundMagnitude_eq_of_quantum (quantum16_of_small pos hi), roundHalfEven_eq near]

/-- In the greatest binade the quantum is 32. -/
theorem roundMagnitude_of_top_binade {x : ℚ} {n : ℤ} (lo : 32768 ≤ x) (hi : x < 65536) (near : NearestEven (x / 32) n) :
    roundMagnitude x = n * 32 := by
  have quantum : quantum16 x = 32 := by
    rw [quantum16_of_binade (t := 15) (by decide) (by norm_num; exact lo) (by norm_num; exact hi)]
    norm_num
  rw [roundMagnitude_eq_of_quantum quantum, roundHalfEven_eq near]

theorem roundMagnitude_below_65520 {x : ℚ} (lo : 65504 ≤ x) (hi : x < 65520) : roundMagnitude x = 65504 := by
  have near : NearestEven (x / 32) 2047 := by
    refine ⟨?_, ?_, ?_⟩ <;> push_cast
    · linarith
    · linarith
    · rintro (tie | tie) <;> linarith
  rw [roundMagnitude_of_top_binade (by linarith) (by linarith) near]
  norm_num

/-- The tie between 65504 and 65536 goes to the even one. -/
theorem roundMagnitude_65520 : roundMagnitude 65520 = 65536 := by
  have near : NearestEven (65520 / 32) 2048 := by
    refine ⟨?_, ?_, fun _ => by decide⟩ <;> norm_num
  rw [roundMagnitude_of_top_binade (by norm_num) (by norm_num) near]
  norm_num

theorem roundMagnitude_le_65504_iff {x : ℚ} (h : 0 ≤ x) : roundMagnitude x ≤ 65504 ↔ x < 65520 := by
  constructor
  · intro le
    by_contra! ge
    have := roundMagnitude_mono (by norm_num) ge
    rw [roundMagnitude_65520] at this
    linarith
  · intro lt
    rcases lt_or_ge x 65504 with below | ge
    · have mono := roundMagnitude_mono h below.le
      rwa [roundMagnitude_below_65520 le_rfl (by norm_num)] at mono
    · exact (roundMagnitude_below_65520 ge lt).le

theorem roundMagnitude_up_to_half_quantum {x : ℚ} (h : 0 ≤ x) (le : x ≤ 2 ^ (-25 : ℤ)) : roundMagnitude x = 0 := by
  rcases h.eq_or_lt with rfl | pos
  · exact roundMagnitude_zero
  · norm_num at le
    have near : NearestEven (x / 2 ^ (-24 : ℤ)) 0 := by
      refine ⟨?_, ?_, fun _ => by decide⟩ <;> norm_num <;> linarith
    rw [roundMagnitude_of_small pos (by norm_num; linarith) near, Int.cast_zero, zero_mul]

theorem roundMagnitude_around_quantum {x : ℚ} (lo : 2 ^ (-25 : ℤ) < x) (hi : x < 3 / 2 * 2 ^ (-24 : ℤ)) :
    roundMagnitude x = 2 ^ (-24 : ℤ) := by
  norm_num at lo hi
  have near : NearestEven (x / 2 ^ (-24 : ℤ)) 1 := by
    refine ⟨?_, ?_, ?_⟩ <;> norm_num
    · linarith
    · linarith
    · constructor <;> intro tie <;> linarith
  rw [roundMagnitude_of_small (by linarith) (by norm_num; linarith) near, Int.cast_one, one_mul]

/-- The tie between one quantum and two goes to the even one. -/
theorem roundMagnitude_three_halves : roundMagnitude (3 / 2 * 2 ^ (-24 : ℤ)) = 2 ^ (-23 : ℤ) := by
  have near : NearestEven (3 / 2 * 2 ^ (-24 : ℤ) / 2 ^ (-24 : ℤ)) 2 := by
    refine ⟨?_, ?_, fun _ => by decide⟩ <;> norm_num
  rw [roundMagnitude_of_small (by norm_num) (by norm_num) near]
  norm_num

theorem roundMagnitude_eq_zero_iff {x : ℚ} (h : 0 ≤ x) : roundMagnitude x = 0 ↔ x ≤ 2 ^ (-25 : ℤ) := by
  refine ⟨fun zero => ?_, roundMagnitude_up_to_half_quantum h⟩
  by_contra! lo
  rcases lt_or_ge x (3 / 2 * 2 ^ (-24 : ℤ)) with hi | ge
  · rw [roundMagnitude_around_quantum lo hi] at zero
    norm_num at zero
  · have mono := roundMagnitude_mono (by norm_num) ge
    rw [roundMagnitude_three_halves, zero] at mono
    norm_num at mono

/-! ### The thresholds -/

section threshold
variable {mode : EncNanMode} {a : Fp64} {neg : Bool} {x : ℚ} (value : value64 a = .finite neg x)
include value

theorem value16_fpEncode_of_finite : value16 (fpEncode mode a) =
    if roundMagnitude x ≤ 65504 then .finite neg (roundMagnitude x) else .infinite neg := by
  have not_nan : class64 a ≠ .nan := (class64_ne_nan_iff a).mpr (by rw [value]; nofun)
  rw [encodeDenotesTheRoundedValue mode a not_nan, value, roundTo16_finite]

/-- The bits below the sign are those of a pattern `k` exactly when the rounded magnitude is `k`'s. -/
theorem fpEncode_low_eq_iff {k : Fp16} {y : ℚ} (hk : value16 k = .finite false y) (hy : y ≤ 65504) :
    fpEncode mode a &&& 0x7FFF#16 = k &&& 0x7FFF#16 ↔ roundMagnitude x = y := by
  have rounded := value16_fpEncode_of_finite (mode := mode) value
  by_cases fits : roundMagnitude x ≤ 65504
  · rw [if_pos fits] at rounded
    exact low_eq_iff rounded hk
  · rw [if_neg fits] at rounded
    refine iff_of_false (fun same => ?_) fun eq => fits (eq ▸ hy)
    have infinite := (value16_infinite_iff _).mp ⟨neg, rounded⟩
    obtain ⟨s, k_infinite⟩ := (value16_infinite_iff k).mpr (same ▸ infinite)
    cases hk.symm.trans k_infinite

theorem fpEncode_infinite_iff : fpEncode mode a &&& 0x7FFF#16 = 0x7C00#16 ↔ 65520 ≤ x := by
  rw [← value16_infinite_iff, ← not_lt, ← roundMagnitude_le_65504_iff (value64_finite_nonneg value),
    value16_fpEncode_of_finite value]
  split
  case isTrue fits => exact iff_of_false nofun (not_not.mpr fits)
  case isFalse fits => exact iff_of_true ⟨neg, rfl⟩ fits

theorem fpEncode_zero_iff : fpEncode mode a &&& 0x7FFF#16 = 0x0000#16 ↔ x ≤ 2 ^ (-25 : ℤ) :=
  (fpEncode_low_eq_iff value (k := 0x0000#16) (by decide +kernel) (by norm_num)).trans
    (roundMagnitude_eq_zero_iff (value64_finite_nonneg value))

end threshold

/-- Settles O23. -/
theorem overflowStartsAt65520 : Obligations.OverflowStartsAt65520 := fun _ _ _ _ value =>
  ⟨fpEncode_infinite_iff value, fun lo hi =>
    (fpEncode_low_eq_iff value (k := 0x7BFF#16) (by decide +kernel) le_rfl).mpr (roundMagnitude_below_65520 lo hi)⟩

/-- Settles O24. -/
theorem underflowEndsAtHalfTheSmallestSubnormal : Obligations.UnderflowEndsAtHalfTheSmallestSubnormal := by
  intro mode a neg x value
  refine ⟨fpEncode_zero_iff value, fun lo hi => ?_, ?_⟩
  · exact (fpEncode_low_eq_iff value (k := 0x0001#16) (by decide +kernel) (by norm_num)).mpr
      (roundMagnitude_around_quantum lo hi)
  · rintro rfl
    exact (fpEncode_low_eq_iff value (k := 0x0002#16) (by decide +kernel) (by norm_num)).mpr roundMagnitude_three_halves

/-! ### The host's predicates (R201) -/

theorem class64_isFinite_iff (a : Fp64) : (class64 a).isFinite = true ↔ ∃ s x, value64 a = .finite s x := by
  have finite_iff : (class64 a).isFinite = true ↔ exponent64 a ≤ 2046 := by
    rw [class64_eq_fieldsClass, fieldsClass]
    split_ifs <;> simp [FpClass.isFinite] <;> omega
  simp only [finite_iff, value64_eq_fieldsValue, fieldsValue_eq_finite_iff, exists_and_left, exists_eq, and_true]

theorem class64_ne_zero_iff {a : Fp64} {s : Bool} {x : ℚ} (value : value64 a = .finite s x) :
    class64 a ≠ .zero ↔ 0 < x := by
  have zero_iff : class64 a = .zero ↔ x = 0 := by
    rw [(classesAgreeWithValues.2 a).2.2.1, value]
    constructor
    · rintro ⟨_, same⟩
      exact (Value.finite.inj same).2
    · rintro rfl
      exact ⟨s, rfl⟩
  rw [ne_eq, zero_iff, (value64_finite_nonneg value).lt_iff_ne']

/-- A pattern is its three fields in port widths. -/
theorem eq_append_fields16 (h : Fp16) : h = h.extractLsb' 15 1 ++ h.extractLsb' 10 5 ++ h.extractLsb' 0 10 := by
  apply BitVec.eq_of_toNat_eq
  rw [toNat_append_eq_add, toNat_append_eq_add, ← sign16_eq_extractLsb', ← exponent16_eq_extractLsb',
    ← mantissa16_eq_extractLsb', toNat_eq_fields16 h]
  omega

/-- The host's mask of bits 14:10 tests the exponent field. -/
theorem and_exponentMask_eq_zero_iff (h : Fp16) : h &&& 0x7C00#16 = 0#16 ↔ exponent16 h = 0 := by
  have mask : (0x7C00#16 : Fp16) = 0#1 ++ BitVec.allOnes 5 ++ 0#10 := by decide
  have masked : (h &&& 0x7C00#16).toNat = exponent16 h * 2 ^ 10 := by
    rw [eq_append_fields16 h, mask, BitVec.and_append, BitVec.and_append, BitVec.and_zero, BitVec.and_allOnes, BitVec.and_zero,
      ← eq_append_fields16 h, toNat_append_eq_add, toNat_append_eq_add, ← exponent16_eq_extractLsb']
    change (0 * 2 ^ 5 + _) * 2 ^ 10 + 0 = _
    omega
  rw [← BitVec.toNat_inj, masked]
  change _ = 0 ↔ _
  omega

/-- Exponent field 0 means a value below the least normal. -/
theorem exponent16_eq_zero_iff {h : Fp16} : exponent16 h = 0 ↔ ∃ s y, value16 h = .finite s y ∧ y < 2 ^ (-14 : ℤ) := by
  have small_iff : floatMagnitude 10 (-25) (exponent16 h) (mantissa16 h) < 2 ^ (-14 : ℤ) ↔ exponent16 h = 0 :=
    floatMagnitude_lt_normal_iff (mantissa16_lt h)
  simp only [value16_eq_fieldsValue, fieldsValue_eq_finite_iff]
  constructor
  · intro zero
    exact ⟨_, _, ⟨by omega, rfl, rfl⟩, small_iff.mpr zero⟩
  · rintro ⟨_, _, ⟨_, _, rfl⟩, small⟩
    exact small_iff.mp small

theorem hostOverflow_iff (mode : EncNanMode) (a : Fp64) :
    hostOverflow mode a = true ↔ ∃ s x, value64 a = .finite s x ∧ 65520 ≤ x := by
  simp only [hostOverflow, Bool.and_eq_true, beq_iff_eq, class64_isFinite_iff]
  constructor
  · rintro ⟨⟨s, x, value⟩, low⟩
    exact ⟨s, x, value, (fpEncode_infinite_iff value).mp low⟩
  · rintro ⟨s, x, value, large⟩
    exact ⟨⟨s, x, value⟩, (fpEncode_infinite_iff value).mpr large⟩

theorem hostRoundedToZero_iff (mode : EncNanMode) (a : Fp64) :
    hostRoundedToZero mode a = true ↔ ∃ s x, value64 a = .finite s x ∧ 0 < x ∧ x ≤ 2 ^ (-25 : ℤ) := by
  simp only [hostRoundedToZero, Bool.and_eq_true, beq_iff_eq, bne_iff_ne, class64_isFinite_iff]
  constructor
  · rintro ⟨⟨⟨s, x, value⟩, nonzero⟩, low⟩
    exact ⟨s, x, value, (class64_ne_zero_iff value).mp nonzero, (fpEncode_zero_iff value).mp low⟩
  · rintro ⟨s, x, value, pos, small⟩
    exact ⟨⟨⟨s, x, value⟩, (class64_ne_zero_iff value).mpr pos⟩, (fpEncode_zero_iff value).mpr small⟩

/-- Encode keeps the sign of a finite value whose result is finite. -/
theorem sign_of_value16_fpEncode {mode : EncNanMode} {a : Fp64} {s t : Bool} {x y : ℚ} (value : value64 a = .finite s x)
    (result : value16 (fpEncode mode a) = .finite t y) : t = s := by
  rw [value16_fpEncode_of_finite value] at result
  split at result
  · exact (Value.finite.inj result).1.symm
  · cases result

theorem hostTiny_iff (mode : EncNanMode) (a : Fp64) : hostTiny mode a = true ↔
    ∃ s x y, value64 a = .finite s x ∧ 0 < x ∧ value16 (fpEncode mode a) = .finite s y ∧ y < 2 ^ (-14 : ℤ) := by
  simp only [hostTiny, Bool.and_eq_true, beq_iff_eq, bne_iff_ne, class64_isFinite_iff, and_exponentMask_eq_zero_iff,
    exponent16_eq_zero_iff]
  constructor
  · rintro ⟨⟨⟨s, x, value⟩, nonzero⟩, t, y, result, small⟩
    obtain rfl := sign_of_value16_fpEncode value result
    exact ⟨t, x, y, value, (class64_ne_zero_iff value).mp nonzero, result, small⟩
  · rintro ⟨s, x, y, value, pos, result, small⟩
    exact ⟨⟨⟨s, x, value⟩, (class64_ne_zero_iff value).mpr pos⟩, s, y, result, small⟩

theorem hostInexact_iff (em : EncNanMode) (dm : DecNanMode) {a : Fp64} (not_nan : class64 a ≠ .nan) :
    hostInexact em dm a = true ↔ value16 (fpEncode em a) ≠ value64 a := by
  have exact_decode := decodeIsExact dm (fpEncode em a) (mt (class16_fpEncode_eq_nan_iff em a).mp not_nan)
  simp only [hostInexact, Bool.and_eq_true, bne_iff_ne, ne_eq, not_nan, not_false_iff, true_and, ← exact_decode]
  exact not_congr ⟨congrArg value64, fun same => (value64_inj not_nan same.symm).symm⟩

theorem hostSignallingInput_eq (a : Fp64) : hostSignallingInput a = signallingNan64 a := by
  have low : (a.extractLsb' 0 51).toNat = a.toNat % 2 ^ 51 := by rw [BitVec.extractLsb'_toNat, Nat.shiftRight_zero]
  rw [Bool.eq_iff_iff]
  simp only [hostSignallingInput, signallingNan64, Bool.and_eq_true, beq_iff_eq, bne_iff_ne, class64_eq_nan_iff, ne_eq,
    ← BitVec.toNat_inj, exponent64_eq_extractLsb', low, Bool.not_eq_true', BitVec.getLsbD,
    Nat.testBit_eq_decide_div_mod_eq, decide_eq_false_iff_not, BitVec.toNat_ofNat, fraction64]
  omega

/-- Settles O52. -/
theorem hostPredicatesMeanTheirConditions : Obligations.HostPredicatesMeanTheirConditions :=
  ⟨fun mode a => ⟨hostOverflow_iff mode a, hostRoundedToZero_iff mode a, hostTiny_iff mode a⟩,
    fun em dm _ => hostInexact_iff em dm, hostSignallingInput_eq⟩

end Sys2Proof.Machine
end

section
/-! PROOF. Hexadecimal text: digits written and read back (42_host_wrappers.md section 2), the spelling of an application
(30_encoding.md section 4), and the hexadecimal batches (42_host_wrappers.md section 3). -/

namespace Sys2Proof.Machine

/-! ### Digits written and read back -/

theorem hexValue?_hexDigit {d : Nat} (h : d < 16) : hexValue? (hexDigit d) = some d :=
  hexValue?_of_digit (.inl (upperDigits_getElem? h))

@[simp] theorem hexDigits_length (n v : Nat) : (hexDigits n v).length = n := by
  induction n with
  | zero => rfl
  | succ n ih => rw [hexDigits, List.length_cons, ih]

/-- The digits of a number read back as it, after what stands before them. -/
theorem hexNumber?_hexDigits (n v acc : Nat) : hexNumber? acc (hexDigits n v) = some (acc * 16 ^ n + v % 16 ^ n) := by
  induction n generalizing acc with
  | zero => simp [hexDigits, hexNumber?, Nat.mod_one]
  | succ n ih =>
    rw [hexDigits, hexNumber?_cons_eq_some_iff]
    refine ⟨_, hexValue?_hexDigit (Nat.mod_lt _ (by decide)), ?_⟩
    rw [ih, pow_succ, Nat.mod_mul]
    congr 1
    ring

theorem hexNumber?_ge {acc n : Nat} {ds : Token} (h : hexNumber? acc ds = some n) : acc * 16 ^ ds.length ≤ n := by
  induction ds generalizing acc with
  | nil =>
    obtain rfl : acc = n := Option.some.inj h
    simp
  | cons c cs ih =>
    obtain ⟨d, -, rest⟩ := hexNumber?_cons_eq_some_iff.mp h
    calc acc * 16 ^ (c :: cs).length = 16 * acc * 16 ^ cs.length := by rw [List.length_cons, pow_succ]; ring
      _ ≤ (16 * acc + d) * 16 ^ cs.length := Nat.mul_le_mul_right _ (Nat.le_add_right _ _)
      _ ≤ n := ih rest

/-- The digits of the number that `ds` spell are `ds`, each put into the form `f` that `hexDigit` gives it. -/
theorem hexDigits_of_hexNumber? {acc n : Nat} {ds : Token} (f : Char → Char)
    (form : ∀ c ∈ ds, ∀ v, hexValue? c = some v → f c = hexDigit v) (h : hexNumber? acc ds = some n) :
    hexDigits ds.length n = ds.map f := by
  induction ds generalizing acc with
  | nil => rfl
  | cons c cs ih =>
    obtain ⟨d, value, rest⟩ := hexNumber?_cons_eq_some_iff.mp h
    have quotient : n / 16 ^ cs.length = 16 * acc + d :=
      Nat.div_eq_of_lt_le (hexNumber?_ge rest) (hexNumber?_lt rest)
    have digit : n / 16 ^ cs.length % 16 = d := by
      have := hexValue?_lt value
      omega
    rw [List.length_cons, hexDigits, digit, ih (fun c' hc' => form c' (List.mem_cons_of_mem c hc')) rest, List.map_cons,
      form c List.mem_cons_self d value]

/-- Digits in front of a number that fits the others are zeros. -/
theorem hexDigits_add_of_lt {n v : Nat} (h : v < 16 ^ n) (k : Nat) :
    hexDigits (k + n) v = List.replicate k '0' ++ hexDigits n v := by
  induction k with
  | zero => rw [Nat.zero_add, List.replicate_zero, List.nil_append]
  | succ k ih =>
    have zero : v / 16 ^ (k + n) = 0 :=
      Nat.div_eq_of_lt (h.trans_le (Nat.pow_le_pow_right (by decide) (Nat.le_add_left n k)))
    rw [Nat.add_right_comm, hexDigits, zero, ih, List.replicate_succ, List.cons_append]
    rfl

/-- The uppercase form of a digit in either case. -/
theorem toUpper_of_hexValue? {c : Char} {v : Nat} (h : hexValue? c = some v) : c.toUpper = hexDigit v := by
  have upper : ∀ v : Fin 16, (upperDigits[v.val]'v.isLt).toUpper = hexDigit v := by decide
  have lower : ∀ v : Fin 16, (lowerDigits[v.val]'v.isLt).toUpper = hexDigit v := by decide
  obtain h | h := digit_of_hexValue? h
  · obtain ⟨v_lt, rfl⟩ := List.getElem?_eq_some_iff.mp h
    exact upper ⟨v, v_lt⟩
  · obtain ⟨v_lt, rfl⟩ := List.getElem?_eq_some_iff.mp h
    exact lower ⟨v, v_lt⟩

theorem upperHex_hexDigit {d : Nat} (h : d < 16) : upperHex (hexDigit d) = true := by
  have table : ∀ d : Fin 16, upperHex (hexDigit d) = true := by decide
  exact table ⟨d, h⟩

/-- An uppercase digit is the one that its value is written as. -/
theorem eq_hexDigit_of_upperHex {c : Char} {v : Nat} (upper : upperHex c = true) (h : hexValue? c = some v) :
    c = hexDigit v := by
  have code := hexValue?_eq_some_iff_toNat.mp h
  simp only [upperHex, Bool.or_eq_true, Bool.and_eq_true, decide_eq_true_eq] at upper
  rw [← Char.ofNat_toNat c, hexDigit]
  split
  · congr 1
    omega
  · congr 1
    omega

theorem all_upperHex_hexDigits (n v : Nat) : (hexDigits n v).all upperHex = true := by
  induction n with
  | zero => rfl
  | succ n ih => rw [hexDigits, List.all_cons, ih, upperHex_hexDigit (Nat.mod_lt _ (by decide)), Bool.and_self]

/-! ### to_hex and from_hex -/

/-- Settles O55: the token is handed to each of the two failures. -/
theorem fromHexFailureCarriesTheToken : Obligations.FromHexFailureCarriesTheToken := by
  refine ⟨fun t => ?_, rfl, rfl, rfl, rfl, rfl, rfl⟩
  simp only [fromHex]
  split
  · cases hexNumber? 0 (afterPrefix t) with
    | none => exact .inr rfl
    | some v => exact .inl ⟨_, rfl⟩
  · exact .inr rfl

theorem fromHex_toHex (b : Fp16) : fromHex (toHex b) = .ok b := by
  have digits : afterPrefix (toHex b) = hexDigits 4 b.toNat := rfl
  have fits : b.toNat < 16 ^ 4 := b.isLt
  rw [fromHex_eq_ok_iff, digits, hexDigits_length, hexNumber?_hexDigits, Nat.zero_mul, Nat.zero_add, Nat.mod_eq_of_lt fits]
  exact ⟨by decide, le_rfl, rfl⟩

/-- Settles O56: the digits of the number are the token's in uppercase, after zeros that fill up to four. -/
theorem hexRoundTrip : Obligations.HexRoundTrip := by
  refine ⟨fromHex_toHex, fun t b accepted => ?_⟩
  obtain ⟨-, le_four, number⟩ := fromHex_eq_ok_iff.mp accepted
  have fits : b.toNat < 16 ^ (afterPrefix t).length := by simpa using hexNumber?_lt number
  have digits := hexDigits_add_of_lt fits (4 - (afterPrefix t).length)
  rw [Nat.sub_add_cancel le_four, hexDigits_of_hexNumber? Char.toUpper (fun _ _ _ => toUpper_of_hexValue?) number] at digits
  rw [toHex, digits]
  rfl

/-! ### The hexadecimal batches -/

section batch
variable {t : Token} {ts : List Token} {n : Nat}

theorem fromHexBatchFrom_cons_of_error {e : InvalidHexFormat} (h : fromHex t = .error e) :
    fromHexBatchFrom n (t :: ts) = .error ⟨n, e⟩ := by
  simp only [fromHexBatchFrom, h]

theorem fromHexBatchFrom_cons_of_ok {b : Fp16} (h : fromHex t = .ok b) :
    fromHexBatchFrom n (t :: ts) = (fromHexBatchFrom (n + 1) ts).map (b :: ·) := by
  simp only [fromHexBatchFrom, h]
  cases fromHexBatchFrom (n + 1) ts <;> rfl

end batch

theorem fromHexBatchFrom_eq_ok_iff {n : Nat} {ts : List Token} {bs : List Fp16} :
    fromHexBatchFrom n ts = .ok bs ↔ ts.map fromHex = bs.map .ok := by
  induction ts generalizing n bs with
  | nil => cases bs <;> simp [fromHexBatchFrom]
  | cons t ts ih =>
    cases h : fromHex t with
    | error e =>
      rw [fromHexBatchFrom_cons_of_error h]
      cases bs <;> simp [h]
    | ok b =>
      rw [fromHexBatchFrom_cons_of_ok h]
      cases bs with
      | nil => cases fromHexBatchFrom (n + 1) ts <;> simp [Except.map]
      | cons c cs =>
        rw [List.map_cons, List.map_cons, h, List.cons.injEq, Except.ok.injEq, ← ih (n := n + 1)]
        cases fromHexBatchFrom (n + 1) ts <;> simp [Except.map]

/-- The failure reported is the first one, counted on from `n`. -/
theorem fromHexBatchFrom_eq_error_iff {n i : Nat} {ts : List Token} {e : InvalidHexFormat} :
    fromHexBatchFrom n ts = .error ⟨i, e⟩ ↔ ∃ k, i = n + k ∧ ts[k]?.map fromHex = some (.error e) ∧
      ∀ j < k, ∃ b, ts[j]?.map fromHex = some (.ok b) := by
  induction ts generalizing n with
  | nil => simp [fromHexBatchFrom]
  | cons t ts ih =>
    cases h : fromHex t with
    | error e' =>
      rw [fromHexBatchFrom_cons_of_error h]
      constructor
      · intro same
        obtain ⟨rfl, rfl⟩ := BatchFailure.mk.inj (Except.error.inj same)
        exact ⟨0, rfl, by simp [h], by simp⟩
      · rintro ⟨k, rfl, failed, before⟩
        cases k with
        | zero => simp_all
        | succ k => simpa [h] using before 0 (Nat.succ_pos k)
    | ok b =>
      have shifted : fromHexBatchFrom n (t :: ts) = .error ⟨i, e⟩ ↔ fromHexBatchFrom (n + 1) ts = .error ⟨i, e⟩ := by
        rw [fromHexBatchFrom_cons_of_ok h]
        cases fromHexBatchFrom (n + 1) ts <;> simp [Except.map]
      rw [shifted, ih]
      constructor
      · rintro ⟨k, rfl, failed, before⟩
        refine ⟨k + 1, by omega, failed, fun j hj => ?_⟩
        cases j with
        | zero => exact ⟨b, by simp [h]⟩
        | succ j => exact before j (Nat.lt_of_succ_lt_succ hj)
      · rintro ⟨k, rfl, failed, before⟩
        cases k with
        | zero => simp [h] at failed
        | succ k => exact ⟨k, by omega, failed, fun j hj => before (j + 1) (Nat.succ_lt_succ hj)⟩

/-- Settles O58. -/
theorem fromHexBatchReportsTheFirstFailure : Obligations.FromHexBatchReportsTheFirstFailure := by
  refine ⟨fun ts bs => fromHexBatchFrom_eq_ok_iff, fun ts i e => ?_,
    fun bs => ⟨List.length_map _, fun i => List.getElem?_map, fromHexBatchFrom_eq_ok_iff.mpr ?_⟩⟩
  · rw [fromHexBatch, fromHexBatchFrom_eq_error_iff]
    simp
  · rw [toHexBatch, List.map_map]
    exact List.map_congr_left fun b _ => fromHex_toHex b

/-! ### The spelling of an application (R69) -/

/-- A pattern's text is `0x` and `n` uppercase digits, and they spell the pattern's number. -/
theorem parsePattern_eq_some_iff {n v : Nat} {t : Token} :
    parsePattern n t = some v ↔ v < 16 ^ n ∧ t = '0' :: 'x' :: hexDigits n v := by
  constructor
  · intro parsed
    unfold parsePattern at parsed
    split at parsed
    · next ds =>
      split_ifs at parsed with spelled
      obtain ⟨rfl, upper⟩ := spelled
      have same := hexDigits_of_hexNumber? id
        (fun c hc v => eq_hexDigit_of_upperHex (List.all_eq_true.mp upper c hc)) parsed
      rw [List.map_id] at same
      exact ⟨by simpa using hexNumber?_lt parsed, by rw [same]⟩
    · cases parsed
  · rintro ⟨fits, rfl⟩
    rw [parsePattern, if_pos ⟨hexDigits_length n v, all_upperHex_hexDigits n v⟩, hexNumber?_hexDigits, Nat.zero_mul,
      Nat.zero_add, Nat.mod_eq_of_lt fits]

/-- Settles O6: the mnemonic tells the operation, and the digits of the full width spell just one operand. -/
theorem textSpellsOneApplication : Obligations.TextSpellsOneApplication := by
  refine ⟨fun i => ?_, fun t i parsed => ?_⟩
  · cases i with
    | fp64ToFp16 a =>
      have operand : parsePattern 16 (operandText (.fp64ToFp16 a)) = some a.toNat :=
        parsePattern_eq_some_iff.mpr ⟨a.isLt, rfl⟩
      change (parsePattern 16 (operandText (.fp64ToFp16 a))).map _ = _
      rw [operand, Option.map_some, BitVec.ofNat_toNat, BitVec.setWidth_eq]
    | fp16ToFp64 h =>
      have operand : parsePattern 4 (operandText (.fp16ToFp64 h)) = some h.toNat :=
        parsePattern_eq_some_iff.mpr ⟨h.isLt, rfl⟩
      change (parsePattern 4 (operandText (.fp16ToFp64 h))).map _ = _
      rw [operand, Option.map_some, BitVec.ofNat_toNat, BitVec.setWidth_eq]
  · unfold parseInstr at parsed
    split at parsed
    · obtain ⟨v, pattern, rfl⟩ := Option.map_eq_some_iff.mp parsed
      obtain ⟨fits, rfl⟩ := parsePattern_eq_some_iff.mp pattern
      rw [printInstr, operandText, BitVec.toNat_ofNat, Nat.mod_eq_of_lt (fits.trans_eq (by norm_num))]
      rfl
    · obtain ⟨v, pattern, rfl⟩ := Option.map_eq_some_iff.mp parsed
      obtain ⟨fits, rfl⟩ := parsePattern_eq_some_iff.mp pattern
      rw [printInstr, operandText, BitVec.toNat_ofNat, Nat.mod_eq_of_lt (fits.trans_eq (by norm_num))]
      rfl
    · cases parsed

end Sys2Proof.Machine
end
